-- ==== Sys2Proof/Word.lean ====
section
/-!
DEFINITION. The words of HCP-256: spec/00_scope.md R10 fixes the widths. Every word is unsigned, bit 0 is the least
significant bit, and `+` on a word is addition modulo 2^width (R11), which is what `BitVec` addition is.
-/

namespace Sys2Proof

/-- `u32`: the datapath word and the width of CMD, DATA and RESP (R9, R10). -/
abbrev Word := BitVec 32

/-- `u8`: a message byte, a digest byte or an ASCII code (R10). -/
abbrev Byte := BitVec 8

/-- `u64`: the padding length field (R9 `LEN_FIELD_BITS`, R10). -/
abbrev DWord := BitVec 64

/-- One block: 64 bytes (R9 `BLOCK_BYTES`, R106). -/
abbrev Block := Vector Byte 64

/-- Eight 32-bit words: the chaining state `H`, the working variables `v` and the `IV` (R31, R32, R39). -/
abbrev Words8 := Vector Word 8

/-- The 64 words of a message schedule `W` or of the constant ROM `K` (R33, R41). -/
abbrev Words64 := Vector Word 64

end Sys2Proof
end

