-- ==== Sys2Proof/Syntax.lean ====
section
/-!
DEFINITION. The commands of HCP-256: one constructor for each row of spec/opcode_table.json (spec/30_encoding.md R83),
and the pair of words in which HOST presents one (R80).
-/

namespace Sys2Proof

/-- What HOST presents on the command port: one `(CMD, DATA)` pair of 32-bit words (R80). -/
structure Command where
  cmd : Word
  data : Word
  deriving DecidableEq, Repr

/-- The seven commands. An operand is the field of CMD that R80 names (`N1`, `IDX`), and for ABSORB also the DATA word
whose top lanes it reads (R81); every other command ignores DATA, so DATA is no operand of it. -/
inductive Instr where
  /-- R210: no operation. -/
  | nop
  /-- R212: start a new message. -/
  | init
  /-- R214: append `N = N1 + 1` message bytes, taken from the top lanes of DATA. -/
  | absorb (n1 : BitVec 2) (data : Word)
  /-- R218: pad, and queue the last block or blocks. -/
  | final
  /-- R222: read digest word `IDX`. `IDX` is the 4-bit field of R80, of which RDDIG may use 0..7. -/
  | rddig (idx : BitVec 4)
  /-- R225: read hex characters `4·IDX` to `4·IDX + 3`. -/
  | rdhex (idx : BitVec 4)
  /-- R228: read the STATUS word. -/
  | rdstat
  deriving DecidableEq, Repr

end Sys2Proof
end

