-- ==== Sys2Proof/WellFormed.lean ====
section
/-!
DEFINITION. Which commands have an encoding (spec/30_encoding.md R80, R84, R86). The types of the operands already bound
`N1` (2 bits, so `N` is in 1..4) and RDHEX's `IDX` (4 bits, 0..15); the one check left is that RDDIG's `IDX` is in 0..7,
that is `IDX[3] = 0`.
-/

namespace Sys2Proof

/-- `true` where the operands are ones the command can be encoded with. -/
def Instr.wellFormed : Instr → Bool
  | .nop => true
  | .init => true
  | .absorb _ _ => true
  | .final => true
  | .rddig idx => decide (idx.toNat < 8)
  | .rdhex _ => true
  | .rdstat => true

end Sys2Proof
end

