-- ==== Sys2Proof/Decode.lean ====
section
/-!
DEFINITION. The decoder and the encoder (spec/30_encoding.md R80-R91, spec/opcode_table.json). The decoder is total on
every `(CMD, DATA)` pair: it answers one of the seven commands or the reason, by name, why CMD is illegal (R86).
-/

namespace Sys2Proof

/-- The assigned opcodes `OP = CMD[3:0]` (R83). -/
inductive Opcode where
  | nop | init | absorb | final | rddig | rdhex | rdstat
  deriving DecidableEq, Repr

/-- One row of the table of R85: CMD decodes to `op` where `CMD & mask = pattern`. -/
structure Row where
  op : Opcode
  pattern : Word
  mask : Word
  deriving DecidableEq, Repr

/-- The table of R85, in its order. -/
def opcodeRows : List Row :=
  [ ⟨.nop,    0x00000000, 0xFFFFFFFF⟩,
    ⟨.init,   0x00000001, 0xFFFFFFFF⟩,
    ⟨.absorb, 0x00000002, 0xFFFFFFCF⟩,
    ⟨.final,  0x00000003, 0xFFFFFFFF⟩,
    ⟨.rddig,  0x00000004, 0xFFFFF8FF⟩,
    ⟨.rdhex,  0x00000005, 0xFFFFF0FF⟩,
    ⟨.rdstat, 0x00000006, 0xFFFFFFFF⟩ ]

/-- `CMD & mask = match` (R85). -/
def Row.matchesWord (r : Row) (cmd : Word) : Bool := cmd &&& r.mask == r.pattern

/-- Field `OP = CMD[3:0]` (R80). -/
def opField (cmd : Word) : BitVec 4 := cmd.extractLsb' 0 4

/-- Field `N1 = CMD[5:4]` (R80). -/
def n1Field (cmd : Word) : BitVec 2 := cmd.extractLsb' 4 2

/-- Reserved field `CMD[7:6]` (R80). -/
def reservedLowField (cmd : Word) : BitVec 2 := cmd.extractLsb' 6 2

/-- Field `IDX = CMD[11:8]` (R80). -/
def idxField (cmd : Word) : BitVec 4 := cmd.extractLsb' 8 4

/-- Reserved field `CMD[31:12]` (R80). -/
def reservedHighField (cmd : Word) : BitVec 20 := cmd.extractLsb' 12 20

/-- Why a CMD word is illegal: the five clauses of R86. -/
inductive IllegalWord where
  /-- `OP` in 0x7..0xF. -/
  | reservedOpcode
  /-- A nonzero bit in CMD[31:12] or CMD[7:6]. -/
  | reservedBits
  /-- A nonzero `N1` with an `OP` other than ABSORB. -/
  | unusedN1
  /-- A nonzero `IDX` with an `OP` other than RDDIG and RDHEX. -/
  | unusedIdx
  /-- RDDIG with `IDX[3] = 1`. -/
  | rddigIndex
  deriving DecidableEq, Repr

/-- The name of the first clause of R86 that a word no row matches falls under. -/
def illegalReason (cmd : Word) : IllegalWord :=
  if 7 ≤ (opField cmd).toNat then .reservedOpcode
  else if reservedHighField cmd ≠ 0 ∨ reservedLowField cmd ≠ 0 then .reservedBits
  else if opField cmd ≠ 2 ∧ n1Field cmd ≠ 0 then .unusedN1
  else if opField cmd ≠ 4 ∧ opField cmd ≠ 5 ∧ idxField cmd ≠ 0 then .unusedIdx
  else .rddigIndex

/-- The operands each command takes from the pair (R84). -/
def operandsOf (op : Opcode) (c : Command) : Instr :=
  match op with
  | .nop => .nop
  | .init => .init
  | .absorb => .absorb (n1Field c.cmd) c.data
  | .final => .final
  | .rddig => .rddig (idxField c.cmd)
  | .rdhex => .rdhex (idxField c.cmd)
  | .rdstat => .rdstat

/-- R85, R86: the first row that matches, or the reason why CMD is illegal. DATA never makes a command illegal (R81). -/
def decode (c : Command) : Except IllegalWord Instr :=
  match opcodeRows.find? (fun r => r.matchesWord c.cmd) with
  | some r => .ok (operandsOf r.op c)
  | none => .error (illegalReason c.cmd)

/-- A CMD word laid out by the fields of R80, its reserved fields 0. -/
def cmdWord (op : BitVec 4) (n1 : BitVec 2) (idx : BitVec 4) : Word :=
  (0#20 ++ idx ++ 0#2 ++ n1 ++ op : BitVec 32)

/-- The encoder, from the assembler table of R89. DATA is 0 where a command ignores it (R89). -/
def encode : Instr → Command
  | .nop => ⟨cmdWord 0 0 0, 0⟩
  | .init => ⟨cmdWord 1 0 0, 0⟩
  | .absorb n1 data => ⟨cmdWord 2 n1 0, data⟩
  | .final => ⟨cmdWord 3 0 0, 0⟩
  | .rddig idx => ⟨cmdWord 4 0 idx, 0⟩
  | .rdhex idx => ⟨cmdWord 5 0 idx, 0⟩
  | .rdstat => ⟨cmdWord 6 0 0, 0⟩

/-- The `(CMD, DATA)` pair whose bits are `w`, numbered as spec/opcode_table.json numbers them: CMD is bits 31..0 and
DATA bits 63..32, and the bits from `nbits` up are 0. -/
def commandOfBits (nbits w : Nat) : Command :=
  ⟨BitVec.ofNat 32 (w % 2 ^ nbits), BitVec.ofNat 32 (w % 2 ^ nbits / 2 ^ 32)⟩

/-- The command the decoder reads from the pair whose bits are `w` (log 11). -/
def decodeTableWord (nbits w : Nat) : Option Instr := (decode (commandOfBits nbits w)).toOption

end Sys2Proof
end

