-- ==== Sys2Proof/Machine/Bits.lean ====
section
/-!
DEFINITION. The bit and byte-order primitives of spec/00_scope.md R12 and R13.
-/

namespace Sys2Proof.Machine

/-- `SHR(n, x)`: the logical right shift (R12). -/
def shr (n : Nat) (x : Word) : Word := x >>> n

/-- `ROTR(n, x) = (x >> n) | (x << (32 - n))` for `0 < n < 32` (R12). -/
def rotr (n : Nat) (x : Word) : Word := (x >>> n) ||| (x <<< (32 - n))

/-- `BE32(b0, b1, b2, b3)`: the first byte is the most significant (R13). -/
def be32 (b0 b1 b2 b3 : Byte) : Word := (b0 ++ b1 ++ b2 ++ b3 : BitVec 32)

/-- Byte `k` of `BYTES32(w)`, that is `w[31-8k : 24-8k]` (R13, R63). -/
def byteOf (w : Word) (k : Nat) : Byte := w.extractLsb' (24 - 8 * k) 8

/-- `BYTES32(w)`: the inverse of `BE32` (R13). -/
def bytes32 (w : Word) : List Byte := [byteOf w 0, byteOf w 1, byteOf w 2, byteOf w 3]

/-- `BYTES64(x)`: the eight bytes of a `u64`, most significant first (R13). -/
def bytes64 (x : DWord) : List Byte :=
  [x.extractLsb' 56 8, x.extractLsb' 48 8, x.extractLsb' 40 8, x.extractLsb' 32 8,
   x.extractLsb' 24 8, x.extractLsb' 16 8, x.extractLsb' 8 8, x.extractLsb' 0 8]

end Sys2Proof.Machine
end

