-- ==== Sys2Proof/Machine/Operands.lean ====
section
/-!
DEFINITION. The operands of the commands (spec/30_encoding.md R81, R84; spec/20_memory.md R64): the byte count and the
message bytes of ABSORB. RDDIG and RDHEX take `IDX` as it stands, zero-extended and not scaled (R84).
-/

namespace Sys2Proof.Machine

/-- `N = N1 + 1`, in 1..4 (R84). -/
def byteCount (n1 : BitVec 2) : Nat := n1.toNat + 1

/-- The `N` message bytes of an ABSORB: byte `k` is `DATA[31-8k : 24-8k]`, and the lanes left over are ignored (R64). -/
def lanes (n1 : BitVec 2) (data : Word) : List Byte := (bytes32 data).take (byteCount n1)

end Sys2Proof.Machine
end

