-- ==== Sys2Proof/Config.lean ====
section
/-!
DEFINITION. The fixed parameters of HCP-256 (spec/00_scope.md R9) and what the spec leaves open, as free values: how HOST and
CORE steps interleave (R72, R316; spec/93_implementation_defined.md I10, I11), what five elements hold after reset (R300, I5), and
what FINAL leaves in `buf`.
-/

namespace Sys2Proof.Config

/-- R9 `MAX_MSG_BYTES` = 2^61 - 1: the largest byte count whose bit length fits the 64-bit length field (R36, R266). -/
def maxMsgBytes : Nat := 2 ^ 61 - 1

/-- R9 `BLOCK_BYTES`. -/
def blockBytes : Nat := 64

/-- R9 `ROUNDS`. -/
def rounds : Nat := 64

/-- R9 `DIGEST_BYTES`. -/
def digestBytes : Nat := 32

/-- R9 `HEX_CHARS`. -/
def hexChars : Nat := 64

/-- FREE VALUE, no body: `hostTurns k` is how many HOST steps are accepted while CORE has an enabled step, before CORE
takes its step number `k`. The spec leaves the interleaving open and asks only that CORE be weakly fair (R152, R316,
I10): a finite number before every CORE step is exactly that. Assumption log 2. -/
opaque hostTurns : Nat → Nat

/-- FREE VALUE, no body: how many of the tail blocks of a FINAL pass through `buf` on their way to `pend`. R30 and R218 write
nothing to `buf` there, which is 0; R34 and the table of R60 say that FINAL's tail writes it. The spec settles it nowhere, and
nothing can observe it. Assumption log 5. -/
opaque finalTailBlocks : Nat

/-! FREE VALUES, no body: what the five elements hold after reset that R30 and R300 leave unspecified. I5 lets it be any value, and R47
says that no rule reads it before one has written the element. Assumption log 4. -/

/-- Word `i` of `H` after reset. -/
opaque resetH : Fin 8 → Word

/-- Byte `i` of `buf` after reset. -/
opaque resetBuf : Fin 64 → Byte

/-- `t` after reset. -/
opaque resetT : Fin 65

/-- Word `i` of `v` after reset. -/
opaque resetV : Fin 8 → Word

/-- Word `i` of `W` after reset. -/
opaque resetW : Fin 64 → Word

end Sys2Proof.Config
end

