-- ==== Sys2Proof/Machine/State.lean ====
section
/-!
DEFINITION. The state of HCP-256: every element of the table of spec/10_state.md R30, and beside it what the model needs
of the outside world (the command port as HOST sees it, the reset input, the interleaving of HOST and CORE), which
assumption log 1, 2 and 3 name. All of it is plain data.
-/

namespace Sys2Proof.Machine

/-- The message state machine (R35). -/
inductive Phase where
  | idle | absorb | finalizing | done
  deriving DecidableEq, Repr

/-- The code of the first error since the last INIT or reset (R42, R261). -/
inductive Cause where
  /-- 0: no error since the last INIT or reset. -/
  | noError
  /-- 1: ILLEGAL_CMD (R264). -/
  | illegalCmd
  /-- 2: SEQ_ERR (R265). -/
  | seqErr
  /-- 3: LEN_OVF (R266). -/
  | lenOvf
  deriving DecidableEq, Repr

/-- The state. The first thirteen fields are R30's table, in its order. -/
structure State where
  /-- `H[0..7]`, the chaining state (R31). No rule reads it before an INIT has written it (R47). -/
  chainH : Words8
  /-- `buf[0..63]`, the partial block (R34). No rule reads a byte at `fill` or above (R34, R47). -/
  buf : Block
  /-- `fill`, how many bytes of `buf` are valid, 0..63 (R34). -/
  fill : Fin 64
  /-- `len`, the message bytes absorbed since INIT (R36). -/
  len : Nat
  /-- `phase`, the message state (R35). -/
  phase : Phase
  /-- `pend`, the blocks queued for compression, head first (R37). -/
  pend : List Block
  /-- `run`, CORE is compressing the head of `pend` (R38). -/
  run : Bool
  /-- `t`, the round counter of the running block, 0..64 (R38). No rule reads it while `run = 0` (R47). -/
  t : Fin 65
  /-- `v[0..7]`, the working variables `a..h` (R39). No rule reads them while `run = 0` (R47). -/
  v : Words8
  /-- `W[0..63]`, the schedule of the running block (R41). No rule reads it while `run = 0` (R47). -/
  w : Words64
  /-- `err`, an error has been recorded (R42). -/
  err : Bool
  /-- `cause`, the code of the first error since the last INIT or reset (R42). -/
  cause : Cause
  /-- `resp`, the response of the last accepted command (R44). -/
  resp : Word
  /-- MODEL'S OWN (log 1): the commands HOST has still to present, in order; the head is on the command port (R80). -/
  port : List Command
  /-- MODEL'S OWN (log 1): the RESP words returned to HOST, oldest first, one for each accepted command (R80, R317). -/
  returned : List Word
  /-- MODEL'S OWN (log 3): the reset input, asserted from outside at any time (R300). -/
  resetPin : Bool
  /-- MODEL'S OWN (log 2): how many steps CORE has taken. -/
  coreSteps : Nat
  /-- MODEL'S OWN (log 2): how many HOST steps were taken while CORE was enabled, since CORE's last step. -/
  polls : Nat
  deriving DecidableEq, Repr

/-- Why a step can stop with a fault: for no reason. HCP-256 has no trap (R260): an error is recorded and the machine goes on (R263),
and the datapath is total (R280). Safe. -/
inductive Fault where
  deriving DecidableEq, Repr

/-- Why a step can be refused. -/
inductive Refusal where
  /-- `exec` has no meaning for the instruction of this mnemonic yet. Raised by `exec`'s refused arms only, of which this
  model has none. Safe. -/
  | notModelled (mnemonic : String)
  deriving DecidableEq, Repr

/-- The machine right after reset: the column "reset" of R30, as R300 repeats it. `H`, `buf`, `t`, `v` and `W`,
whose values it leaves unspecified, hold free values (log 4). Nothing is on the port, and reset is not asserted any more (log 1, 2, 3). -/
def State.reset : State where
  chainH := Vector.ofFn Config.resetH
  buf := Vector.ofFn Config.resetBuf
  fill := 0
  len := 0
  phase := .idle
  pend := []
  run := false
  t := Config.resetT
  v := Vector.ofFn Config.resetV
  w := Vector.ofFn Config.resetW
  err := false
  cause := .noError
  resp := 0
  port := []
  returned := []
  resetPin := false
  coreSteps := 0
  polls := 0

end Sys2Proof.Machine
end

