-- ==== Sys2Proof/Machine/Flags.lean ====
section
/-!
DEFINITION. The STATUS word and its fields (spec/10_state.md R40, R43): they are computed from the state and not stored.
HCP-256 has no other flags (R46).
-/

namespace Sys2Proof.Machine

/-- `phase` as STATUS[3:2] encodes it (R35). -/
def Phase.code : Phase → BitVec 2
  | .idle => 0
  | .absorb => 1
  | .finalizing => 2
  | .done => 3

/-- `cause` as STATUS[18:17] encodes it (R261). -/
def Cause.code : Cause → BitVec 2
  | .noError => 0
  | .illegalCmd => 1
  | .seqErr => 2
  | .lenOvf => 3

/-- `BUSY = (pend != [])` (R40). -/
def State.busy (s : State) : Bool := !s.pend.isEmpty

/-- `DVALID`: `phase = DONE` (R43). -/
def State.dvalid (s : State) : Bool := decide (s.phase = .done)

/-- The STATUS word, by the fields of R43 from bit 31 down: reserved [31:19], CAUSE [18:17], ERR [16], reserved [15:10],
FILL [9:4], PHASE [3:2], DVALID [1], BUSY [0]. The reserved fields read 0 (log 7). -/
def State.status (s : State) : Word :=
  (0#13 ++ s.cause.code ++ BitVec.ofBool s.err ++ 0#6 ++ BitVec.ofNat 6 s.fill.val ++ s.phase.code
    ++ BitVec.ofBool s.dvalid ++ BitVec.ofBool s.busy : BitVec 32)

end Sys2Proof.Machine
end

