-- ==== Sys2Proof/Machine/Padder.lean ====
section
/-!
DEFINITION. The message padder (spec/41_padder.md R100-R108): the whole-message function `pad`, and `padTail`, which is
what FINAL computes from the partial block.
-/

namespace Sys2Proof.Machine

/-- How many zero bytes follow the marker: `(55 - n) mod 64`, the remainder taken in 0..63 (R100, R104). -/
def zeroCount (n : Nat) : Nat := (119 - n % 64) % 64

/-- The marker `0x80`, the zeros and the big-endian length field that follow `n` bytes (R100). -/
def padding (n : Nat) (bitLength : DWord) : List Byte :=
  [0x80] ++ List.replicate (zeroCount n) 0 ++ bytes64 bitLength

/-- `8 * n` as the 64-bit length field; it fits for every `n` up to `MAX_MSG_BYTES` (R36, R107). -/
def bitLength (n : Nat) : DWord := BitVec.ofNat 64 (8 * n)

/-- `pad(m)`: the padded message (R100). -/
def pad (m : List Byte) : List Byte := m ++ padding m.length (bitLength m.length)

/-- `p[64q .. 64q+63]` as a block (R106). It is applied only where all those bytes exist (log 12). -/
def blockAt (p : List Byte) (q : Nat) : Block := Vector.ofFn fun i => p.getD (64 * q + i.val) 0

/-- `blocks(p)`: the blocks of a byte sequence whose length is a multiple of 64 (R106). -/
def blocks (p : List Byte) : List Block := (List.range (p.length / 64)).map (blockAt p)

/-- `nblocks(m)` for a message of `n` bytes: `floor((n + 8) / 64) + 1` (R101, R233). -/
def nblocks (n : Nat) : Nat := (n + 8) / 64 + 1

/-- `padTail(p, L)`: the padded last block or blocks, from the bytes of the partial block (R104). -/
def padTail (p : List Byte) (l : DWord) : List Block :=
  let tail := p ++ padding p.length l
  if p.length ≤ 55 then [blockAt tail 0] else [blockAt tail 0, blockAt tail 1]

end Sys2Proof.Machine
end

