-- ==== Sys2Proof/Machine/Ops.lean ====
section
/-!
DEFINITION. The operations the meanings share: answering RESP, recording an error (`raise`, which is HCP-256's whole
"exception entry": spec/60_exceptions.md R263, R269) and clearing it (R270), and the message intake (R214, R218).
-/

namespace Sys2Proof.Machine

/-- The result of a step or of a part of one. -/
abbrev Result := Host.Outcome State Fault Refusal

/-- Go on with `f` where the part before answered a next state. -/
def Result.andThen (r : Result) (f : State → Result) : Result :=
  match r with
  | .next s => f s
  | .fault e => .fault e
  | .refused e => .refused e

/-- `resp <- x` (R44, R202). -/
def State.respond (s : State) (x : Word) : State := { s with resp := x }

/-- `raise C` (R263): record the cause if no error is recorded yet, and answer 0. Nothing else changes. HCP-256 has no
trap: no control transfer, no saved state (R260, R269). -/
def State.raise (s : State) (c : Cause) : State :=
  if s.err then { s with resp := 0 } else { s with err := true, cause := c, resp := 0 }

/-- The only way back from an error: `err <- 0; cause <- 0`, which INIT does (R212, R270). -/
def State.clearError (s : State) : State := { s with err := false, cause := .noError }

/-- The bytes of the current partial block, `buf[0..fill-1]`, in message order (R34). -/
def State.partialBlock (s : State) : List Byte := s.buf.toList.take s.fill.val

/-- `buf` after FINAL has put together the blocks `tail`: the last one of those that passed through `buf` (R34, R60), or `buf` as it
was where none did (R30, R218). Which it is, is the free value of log 5. It is built byte by byte, so that a byte which an ABSORB
writes later has its value whatever the free value is. -/
def State.bufAfterTail (s : State) (tail : List Block) : Block :=
  Vector.ofFn fun i =>
    match (tail.take Config.finalTailBlocks).getLast? with
    | some blk => blk[i]
    | none => s.buf[i]

/-- `buf[fill] <- b` and `len <- len + 1`: what R214 does for one byte before it looks at `fill`. -/
def State.putByte (s : State) (b : Byte) : State :=
  { s with buf := s.buf.set s.fill.val b, len := s.len + 1 }

/-- One turn of R214's loop: store the byte, count it, and queue a copy of the block where it is full. -/
def absorbByte (b : Byte) (s : State) : State :=
  if h : s.fill.val + 1 < 64 then { s.putByte b with fill := ⟨s.fill.val + 1, h⟩ }
  else { s.putByte b with fill := 0, pend := s.pend ++ [(s.putByte b).buf] }

/-- R214's loop over the bytes of one ABSORB, in order. -/
def absorbBytes : List Byte → State → State
  | [], s => s
  | b :: bs, s => absorbBytes bs (absorbByte b s)

end Sys2Proof.Machine
end

