-- ==== Sys2Proof/Machine/Message.lean ====
section
/-!
DEFINITION. The commands that take a message in: NOP, INIT, ABSORB and FINAL (spec/45_host_commands.md R210-R218). Each is
the effect of the command once it is ACCEPTED; when it is accepted is Machine/Port.lean's (R200).
-/

namespace Sys2Proof.Machine

/-- NOP (R210). -/
def execNop (s : State) : Result := .next (s.respond 0)

/-- INIT (R212). It is legal in every phase, leaves `buf` as it is, and is the only command that clears an error. -/
def execInit (s : State) : Result :=
  .next ({ s with chainH := iv, len := 0, fill := 0, phase := .absorb }.clearError.respond 0)

/-- ABSORB (R214): the causes in the order of R267, then all `N` bytes. -/
def execAbsorb (n1 : BitVec 2) (data : Word) (s : State) : Result :=
  if s.phase ≠ .absorb then .next (s.raise .seqErr)
  else if s.len + byteCount n1 > Config.maxMsgBytes then .next (s.raise .lenOvf)
  else .next ((absorbBytes (lanes n1 data) s).respond 0)

/-- FINAL (R218). Whether the tail it builds is also left in `buf` is open (R34, R60; log 5). -/
def execFinal (s : State) : Result :=
  if s.phase ≠ .absorb then .next (s.raise .seqErr)
  else
    let tail := padTail s.partialBlock (bitLength s.len)
    .next ({ s with
      buf := s.bufAfterTail tail, pend := s.pend ++ tail, fill := 0, phase := .finalizing }.respond 0)

end Sys2Proof.Machine
end

