-- ==== Sys2Proof/Machine/Round.lean ====
section
/-!
DEFINITION. The round processor and the state mixer as pure functions (spec/43_round_processor.md R140-R147).
-/

namespace Sys2Proof.Machine

/-- `Σ0(x) = ROTR(2, x) ^ ROTR(13, x) ^ ROTR(22, x)` (R140). -/
def bigSigma0 (x : Word) : Word := rotr 2 x ^^^ rotr 13 x ^^^ rotr 22 x

/-- `Σ1(x) = ROTR(6, x) ^ ROTR(11, x) ^ ROTR(25, x)` (R141). -/
def bigSigma1 (x : Word) : Word := rotr 6 x ^^^ rotr 11 x ^^^ rotr 25 x

/-- `Ch(x, y, z) = (x & y) ^ (~x & z)` (R142). -/
def ch (x y z : Word) : Word := (x &&& y) ^^^ (~~~x &&& z)

/-- `Maj(x, y, z) = (x & y) ^ (x & z) ^ (y & z)` (R143). -/
def maj (x y z : Word) : Word := (x &&& y) ^^^ (x &&& z) ^^^ (y &&& z)

/-- `T1 = h + Σ1(e) + Ch(e, f, g) + k + w` (R145). -/
def roundT1 (v : Words8) (k w : Word) : Word := v[7] + bigSigma1 v[4] + ch v[4] v[5] v[6] + k + w

/-- `T2 = Σ0(a) + Maj(a, b, c)` (R145). -/
def roundT2 (v : Words8) : Word := bigSigma0 v[0] + maj v[0] v[1] v[2]

/-- `round(v, k, w) = [T1 + T2, a, b, c, d + T1, e, f, g]`: one round (R145). -/
def round (v : Words8) (k w : Word) : Words8 :=
  #v[roundT1 v k w + roundT2 v, v[0], v[1], v[2], v[3] + roundT1 v k w, v[4], v[5], v[6]]

/-- `mix(Hin, v)[i] = Hin[i] + v[i]`: the state mixer (R146). -/
def mix (hin v : Words8) : Words8 := Vector.ofFn fun i => hin[i] + v[i]

/-- Rounds `0 .. n-1` of R147's loop; round `t` reads `K[t]` (R144) and `W[t]`. Reads beyond the tables cannot occur, as
`n` is at most 64. -/
def rounds (v : Words8) (w : Words64) : Nat → Words8
  | 0 => v
  | n + 1 => round (rounds v w n) (kRom[n]?.getD 0) (w[n]?.getD 0)

/-- `compress(Hin, W)`: 64 rounds from `v = Hin`, then the mixer (R147). -/
def compress (hin : Words8) (w : Words64) : Words8 := mix hin (rounds hin w 64)

end Sys2Proof.Machine
end

