-- ==== Sys2Proof/Machine/Scheduler.lean ====
section
/-!
DEFINITION. The message scheduler (spec/42_scheduler.md R120-R123).
-/

namespace Sys2Proof.Machine

/-- `σ0(x) = ROTR(7, x) ^ ROTR(18, x) ^ SHR(3, x)` (R120). -/
def smallSigma0 (x : Word) : Word := rotr 7 x ^^^ rotr 18 x ^^^ shr 3 x

/-- `σ1(x) = ROTR(17, x) ^ ROTR(19, x) ^ SHR(10, x)` (R121). -/
def smallSigma1 (x : Word) : Word := rotr 17 x ^^^ rotr 19 x ^^^ shr 10 x

/-- Word `j` of the block's 16 big-endian words (R61, R122). -/
def blockWord (blk : Block) (j : Fin 16) : Word :=
  be32 blk[4 * j.val] blk[4 * j.val + 1] blk[4 * j.val + 2] blk[4 * j.val + 3]

/-- The recurrence of R122 on the words `W[0..j-1]` held NEWEST FIRST, so that entry `k` is `W[j-1-k]`:
`W[j] = σ1(W[j-2]) + W[j-7] + σ0(W[j-15]) + W[j-16]`. -/
def nextScheduleWord (ws : List Word) : Word :=
  smallSigma1 (ws.getD 1 0) + ws.getD 6 0 + smallSigma0 (ws.getD 14 0) + ws.getD 15 0

/-- The words `W[0 .. 15+n]`, newest first: the block's words, then `n` words by the recurrence (R122). -/
def scheduleWords (blk : Block) : Nat → List Word
  | 0 => (List.ofFn (blockWord blk)).reverse
  | n + 1 => let ws := scheduleWords blk n; nextScheduleWord ws :: ws

/-- There are `16 + n` of them. -/
theorem scheduleWords_length (blk : Block) (n : Nat) : (scheduleWords blk n).length = 16 + n := by
  induction n with
  | zero => simp [scheduleWords]
  | succ n ih => simp only [scheduleWords, List.length_cons, ih]; omega

/-- `schedule(blk) = W[0..63]`: the 64-word message schedule of one block (R122). -/
def schedule (blk : Block) : Words64 :=
  ⟨(scheduleWords blk 48).reverse.toArray, by simp [scheduleWords_length]⟩

end Sys2Proof.Machine
end

