-- ==== Sys2Proof/Machine/Digest.lean ====
section
/-!
DEFINITION. The digest finalizer and the hex encoder (spec/44_digest_hex.md R180-R187), and the whole function of the
source, `hash256_hex_string` (R2, R184).
-/

namespace Sys2Proof.Machine

/-- `digestBytes(H)`: the eight words as big-endian bytes, in word order (R180). -/
def digestBytes (h : Words8) : List Byte := h.toList.flatMap bytes32

/-- `hexchar(n)`: the ASCII code of the lowercase hex digit of a nibble (R182). -/
def hexchar (n : BitVec 4) : Byte :=
  if n.toNat ≤ 9 then 0x30 + n.zeroExtend 8 else 0x61 + (n.zeroExtend 8 - 10)

/-- The two characters of one byte, the high nibble first (R183). -/
def hexPair (b : Byte) : List Byte := [hexchar (b.extractLsb' 4 4), hexchar (b.extractLsb' 0 4)]

/-- `toHex(bs)`: the hex encoder, as a sequence of ASCII codes (R183). -/
def toHex (bs : List Byte) : List Byte := bs.flatMap hexPair

/-- The chaining state after the blocks, in order, from `h` (R181's loop). -/
def chain (h : Words8) (blks : List Block) : Words8 :=
  blks.foldl (fun h blk => compress h (schedule blk)) h

/-- `digest(m)`: 32 bytes (R181). -/
def digest (m : List Byte) : List Byte := digestBytes (chain iv (blocks (pad m)))

/-- `hash256_hex_string(m) = toHex(digest(m))`: 64 ASCII codes (R184). -/
def hash256HexString (m : List Byte) : List Byte := toHex (digest m)

end Sys2Proof.Machine
end

