-- ==== Sys2Proof/Machine/Readout.lean ====
section
/-!
DEFINITION. The commands that read: RDDIG, RDHEX and RDSTAT (spec/45_host_commands.md R222-R228).
-/

namespace Sys2Proof.Machine

/-- RDDIG (R222). An `IDX` of 8..15 has no encoding as RDDIG: such a word raises ILLEGAL_CMD, before the phase is looked at
(R86, R264, R267). The decoder never makes one, so this first branch only says what the ill-formed term means (log 9). -/
def execRddig (idx : BitVec 4) (s : State) : Result :=
  if h : idx.toNat < 8 then
    if s.phase ≠ .done then .next (s.raise .seqErr)
    else .next (s.respond s.chainH[idx.toNat])
  else .next (s.raise .illegalCmd)

/-- The four characters `s[4j] .. s[4j+3]` as one word, the first most significant (R65, R225). -/
def hexGroup (chars : List Byte) (j : Nat) : Word :=
  be32 (chars.getD (4 * j) 0) (chars.getD (4 * j + 1) 0) (chars.getD (4 * j + 2) 0) (chars.getD (4 * j + 3) 0)

/-- RDHEX (R225). -/
def execRdhex (idx : BitVec 4) (s : State) : Result :=
  if s.phase ≠ .done then .next (s.raise .seqErr)
  else .next (s.respond (hexGroup (toHex (digestBytes s.chainH)) idx.toNat))

/-- RDSTAT (R228). -/
def execRdstat (s : State) : Result := .next (s.respond s.status)

end Sys2Proof.Machine
end

