-- ==== Sys2Proof/Machine/Dispatch.lean ====
section
/-!
DEFINITION. What each accepted command does (spec/45_host_commands.md R201): one arm for each constructor of Instr.
-/

namespace Sys2Proof.Machine

def exec (i : Instr) (s : State) : Host.Outcome State Fault Refusal :=
  match i with
  | .nop => Sys2Proof.Machine.execNop s
  | .init => Sys2Proof.Machine.execInit s
  | .absorb n1 data => Sys2Proof.Machine.execAbsorb n1 data s
  | .final => Sys2Proof.Machine.execFinal s
  | .rddig idx => Sys2Proof.Machine.execRddig idx s
  | .rdhex idx => Sys2Proof.Machine.execRdhex idx s
  | .rdstat => Sys2Proof.Machine.execRdstat s

end Sys2Proof.Machine
end

