-- ==== Sys2Proof/Machine/Sequencer.lean ====
section
/-!
DEFINITION. The CORE agent's three steps (spec/43_round_processor.md R148-R150). CORE steps have no encoding (R91).
-/

namespace Sys2Proof.Machine

/-- CSTART (R148): load the head block. `pend` keeps it until CMIX. -/
def cstart (blk : Block) (s : State) : Result :=
  .next { s with w := schedule blk, v := s.chainH, t := 0, run := true }

/-- CROUND (R149): round `t`, for `t < 64`. -/
def cround (t : Fin 64) (s : State) : Result :=
  .next { s with v := round s.v kRom[t.val] s.w[t.val], t := t.succ }

/-- The phase after CMIX (R150): DONE where the last block of a FINAL retires. -/
def phaseAfterMix (p : Phase) (rest : List Block) : Phase :=
  if rest.isEmpty ∧ p = .finalizing then .done else p

/-- CMIX (R150): mix into `H` and retire the block. -/
def cmix (s : State) : Result :=
  .next { s with
    chainH := mix s.chainH s.v, pend := s.pend.tail, run := false,
    phase := phaseAfterMix s.phase s.pend.tail }

/-- CORE has an enabled step: CSTART where `run = 0` and `pend != []`, CROUND or CMIX where `run = 1` (R148-R150). -/
def State.coreEnabled (s : State) : Bool := s.run || s.busy

/-- The one CORE step that is enabled (R148-R150); where none is, nothing happens (log 6). States in which `run` and `pend` do not fit
together are reached by no run (log 10). -/
def coreStep (s : State) : Result :=
  if s.run then if h : s.t.val < 64 then cround ⟨s.t.val, h⟩ s else cmix s
  else match s.pend with
    | blk :: _ => cstart blk s
    | [] => .next s

end Sys2Proof.Machine
end

