-- ==== Sys2Proof/Machine/Port.lean ====
section
/-!
DEFINITION. The command port and the turns of the two agents: acceptance and hold (spec/45_host_commands.md R200-R202),
the interleaving of HOST and CORE (spec/20_memory.md R72), and the reset input (spec/70_reset_and_hazards.md R300).
-/

namespace Sys2Proof.Machine

/-- `CMD` decodes to NOP or RDSTAT: the two commands accepted even while BUSY = 1 (R200). -/
def acceptedWhileBusy (c : Command) : Bool :=
  match decode c with
  | .ok .nop => true
  | .ok .rdstat => true
  | _ => false

/-- The pair is accepted: BUSY = 0, or it is NOP or RDSTAT (R200). -/
def State.accepts (s : State) (c : Command) : Bool := !s.busy || acceptedWhileBusy c

/-- The command HOST presents, where HOST has a step, that is where it is accepted (R200). -/
def State.hostReady (s : State) : Option Command :=
  match s.port with
  | [] => none
  | c :: _ => if s.accepts c then some c else none

/-- A command is on the port and is not accepted: it is held (R200). -/
def State.held (s : State) : Bool := !s.port.isEmpty && s.hostReady.isNone

/-- Which agent takes the next step. -/
inductive Turn where
  /-- Reset is asserted (R300). -/
  | reset
  /-- HOST's command is accepted and executed (R201). -/
  | host (c : Command)
  /-- CORE takes its enabled step (R148-R150). -/
  | core
  /-- No command is presented and CORE has no enabled step (R317); the step then changes nothing (log 6). -/
  | idle
  deriving DecidableEq, Repr

/-- Where only one agent is enabled, it steps. Where both are, HOST steps while it has had fewer turns than
`Config.hostTurns` gives it before CORE's next step (log 2). Reset comes first (log 3). -/
def State.turn (s : State) : Turn :=
  if s.resetPin then .reset
  else match s.hostReady, s.coreEnabled with
    | some c, false => .host c
    | none, true => .core
    | none, false => .idle
    | some c, true => if s.polls < Config.hostTurns s.coreSteps then .host c else .core

/-- The pair leaves the port as it is accepted, and HOST's turn is counted where CORE was enabled too (log 2). -/
def State.takeCommand (s : State) : State :=
  { s with port := s.port.tail, polls := if s.coreEnabled then s.polls + 1 else s.polls }

/-- RESP is returned to HOST (R80, R82). -/
def State.returnResp (s : State) : State := { s with returned := s.returned ++ [s.resp] }

/-- Dispatch (R201): an illegal word raises ILLEGAL_CMD, and any other executes. -/
def dispatchCommand (c : Command) (s : State) : Result :=
  match decode c with
  | .ok i => exec i s
  | .error _ => .next (s.raise .illegalCmd)

/-- A HOST step: the pair is taken, dispatched, and RESP is returned, in one atomic step (R68, R80, R201). -/
def hostStep (c : Command) (s : State) : Result :=
  (dispatchCommand c s.takeCommand).andThen fun s' => .next s'.returnResp

/-- CORE's step, counted (log 2). -/
def countedCoreStep (s : State) : Result :=
  (coreStep s).andThen fun s' => .next { s' with coreSteps := s.coreSteps + 1, polls := 0 }

/-- Reset (R300): every element of R30 to its reset value; a held command is dropped (I13); what HOST has received and has
still to present is HOST's own and stays (log 3). -/
def State.applyReset (s : State) : State :=
  { State.reset with
    port := if s.held then s.port.tail else s.port
    returned := s.returned, coreSteps := s.coreSteps, polls := s.polls }

/-- Put a pair on the command port as the next one HOST presents, with nothing that would hold it or go before it: reset not
asserted, and no compression queued or running (log 11). -/
def State.present (s : State) (c : Command) : State :=
  { s with port := c :: s.port, resetPin := false, pend := [], run := false }

end Sys2Proof.Machine
end

