-- ==== Sys2Proof/Machine/Step.lean ====
section
/-!
DEFINITION. One step of HCP-256: whichever agent has the turn takes one atomic step (spec/00_scope.md R15, spec/20_memory.md
R68).
-/

namespace Sys2Proof.Machine

/-- One step: reset, an accepted command, a CORE step, or nothing where no agent has a step. -/
def step (s : State) : Host.Outcome State Fault Refusal :=
  match s.turn with
  | .reset => .next s.applyReset
  | .host c => hostStep c s
  | .core => countedCoreStep s
  | .idle => .next s

/-- `s` with the pair of bits `w` (numbered as spec/opcode_table.json numbers them) presented on the command port, so that
the very next step accepts and executes it (log 11). -/
def State.withFetchWord (s : State) (nbits w : Nat) : State := s.present (commandOfBits nbits w)

end Sys2Proof.Machine
end

