-- ==== Sys2Proof/Machine/Assembler.lean ====
section
/-!
DEFINITION. The pseudo-instructions of the assembler (spec/30_encoding.md R90), as the commands they expand to. WAITIDLE is a loop of
HOST's over RDSTAT, not a fixed sequence of commands (log 1).
-/

namespace Sys2Proof.Machine

/-- `ABSORBB b` (R90): one byte. -/
def absorbB (b : Byte) : Instr := .absorb 0 (be32 b 0 0 0)

/-- `ABSORBW w` (R90): four bytes. -/
def absorbW (w : Word) : Instr := .absorb 3 w

/-- `MSG [b0, ..., bk-1]` (R90), as the operands `(N1, DATA)` of its ABSORBs: four bytes each, the rest in the last, the unused low
lanes 0; the expansion of no bytes is empty. -/
def msg : List Byte → List (BitVec 2 × Word)
  | [] => []
  | [b0] => [(0, be32 b0 0 0 0)]
  | [b0, b1] => [(1, be32 b0 b1 0 0)]
  | [b0, b1, b2] => [(2, be32 b0 b1 b2 0)]
  | b0 :: b1 :: b2 :: b3 :: rest => (3, be32 b0 b1 b2 b3) :: msg rest

/-- `RDHEXALL` (R90): `RDHEX 0` to `RDHEX 15`. -/
def rdhexAll : List Instr := (List.finRange 16).map fun j => .rdhex (BitVec.ofFin j)

/-- `HASH` (R90): INIT, MSG, FINAL, RDHEXALL. -/
def hashCommands (m : List Byte) : List Instr := .init :: (msg m).map (fun p => .absorb p.1 p.2) ++ .final :: rdhexAll

end Sys2Proof.Machine
end

