-- ==== Sys2Proof/Safety.lean ====
section
/-!
DEFINITION. What counts as a safe run of HCP-256, in the terms the statements use: the invariant of the machine, runs of
several steps, and the command sequence by which HOST obtains one digest (spec/45_host_commands.md R232).
-/

namespace Sys2Proof.Machine

/-- What is true in every state a run can be in: the phases and the queue fit together (R35, R37, R40), the counters stay in
range (R34, R36), an error and its cause are recorded together (R42), and
while a block runs, `W` and `v` are its schedule and the working variables after `t` rounds (R38, R145, R148). -/
structure State.Inv (s : State) : Prop where
  /-- R37: `pend` never holds more than two blocks. -/
  pendShort : s.pend.length ≤ 2
  /-- R35, R37: only a message being absorbed or finalized has a block queued. -/
  busyPhase : s.pend ≠ [] → s.phase = .absorb ∨ s.phase = .finalizing
  /-- R37: an ABSORB queues at most one block, and finds none queued. -/
  absorbOne : s.phase = .absorb → s.pend.length ≤ 1
  /-- R214: FINALIZING implies BUSY = 1. -/
  finalizingBusy : s.phase = .finalizing → s.pend ≠ []
  /-- R38: a running block is still the head of `pend`. -/
  runBusy : s.run = true → s.pend ≠ []
  /-- R42: `err = 1` exactly when `cause != 0`. -/
  errCause : s.err = true ↔ s.cause ≠ .noError
  /-- R36: `len` is at most `MAX_MSG_BYTES`. -/
  lenBound : s.len ≤ Config.maxMsgBytes
  /-- R34, R67: the block boundaries are fixed by the byte count. -/
  fillOfLen : s.phase = .absorb → s.fill.val = s.len % 64
  /-- R218, R300: outside an open message the buffer holds no valid byte. -/
  fillClosed : s.phase ≠ .absorb → s.fill.val = 0
  /-- R38, R148, R149: `W` is the schedule of the head block, and `v` is `H` after `t` rounds. -/
  running : s.run = true → ∃ blk rest, s.pend = blk :: rest ∧ s.w = schedule blk ∧
    s.v = rounds s.chainH (schedule blk) s.t.val

/-- `s'` is `s` but for values that nothing has written since reset, or that nothing reads again (R47's three clauses): `H` counts as
written from INIT on, `t`, `v` and `W` while `run = 1`, and `buf[i]` where `i < fill`. -/
structure State.AgreesWhereWritten (s s' : State) : Prop where
  /-- Every element that R300 gives a value, and the model's own fields, are the same. -/
  others : s' = { s with chainH := s'.chainH, buf := s'.buf, t := s'.t, v := s'.v, w := s'.w }
  /-- `H` is the same as soon as an INIT has written it. -/
  chain : s.phase ≠ .idle → s'.chainH = s.chainH
  /-- The valid bytes of `buf` are the same. -/
  partialBlock : ∀ (i : Nat) (h : i < 64), i < s.fill.val → s'.buf[i] = s.buf[i]
  /-- The registers of a running block are the same. -/
  running : s.run = true → s'.t = s.t ∧ s'.v = s.v ∧ s'.w = s.w

/-- HOST's command `i` was accepted in the step from `s` to `t`: it was the pair on the port, and it has left the port. -/
def Accepted (i : Instr) (s t : State) : Prop :=
  s.resetPin = false ∧ ∃ c rest, s.port = c :: rest ∧ t.port = rest ∧ decode c = .ok i

/-- `n` steps of the machine, ending at the first stop. -/
def stepN : Nat → State → Result
  | 0, s => .next s
  | n + 1, s => Result.andThen (step s) (stepN n)

/-- `n` steps of CORE alone (R151, R152). -/
def coreStepN : Nat → State → Result
  | 0, s => .next s
  | n + 1, s => (coreStep s).andThen (coreStepN n)

/-- The message bytes that a sequence of ABSORB operands `(N1, DATA)` carries (R64, R105). -/
def messageOf (parts : List (BitVec 2 × Word)) : List Byte := parts.flatMap fun p => lanes p.1 p.2

/-- INIT, the ABSORBs, FINAL, and then the given read commands (R232). -/
def hashProgram (parts : List (BitVec 2 × Word)) (reads : List Instr) : List Command :=
  (.init :: parts.map (fun p => .absorb p.1 p.2) ++ .final :: reads : List Instr).map encode

/-- `RDDIG 0` to `RDDIG 7`. -/
def rddigAll : List Instr := (List.finRange 8).map fun i => .rddig (BitVec.ofNat 4 i.val)

end Sys2Proof.Machine
end

