-- ==== Sys2Proof/Certificates/Slice0/Obligations.lean ====
section
/-!
DEFINITION. The statements about this model, for the provers. Each cites the rule of spec/ it formalises; OBLIGATIONS.json
lists them. Where a statement rests on a convention of the model it names the assumption log's entry.
-/

open Sys2Proof Sys2Proof.Machine

/-! ### Encoding -/

/-- R85, R89: what the encoder writes for a well-formed command, the decoder reads back, every operand at every value. -/
def Obligations.DecodeOfEncodeIsTheCommand : Prop :=
  ∀ i : Instr, i.wellFormed = true → decode (encode i) = .ok i

/-- R85, R86, R89: each legal pair has one meaning: what decodes is well formed and is encoded by that same CMD word, and DATA
is an operand of ABSORB alone. -/
def Obligations.EncodeOfDecodeIsTheWord : Prop :=
  ∀ (c : Command) (i : Instr), decode c = .ok i →
    i.wellFormed = true ∧ (encode i).cmd = c.cmd ∧
      match i with
      | .absorb _ data => data = c.data
      | _ => (encode i).data = 0

/-- R85: CMD decodes by match and mask, each row of the table written out; no two rows match one word. -/
def Obligations.DecodeFollowsTheMatchMaskTable : Prop :=
  ∀ c : Command,
    (decode c = .ok .nop ↔ c.cmd &&& 0xFFFFFFFF = 0x00000000) ∧
    (decode c = .ok .init ↔ c.cmd &&& 0xFFFFFFFF = 0x00000001) ∧
    ((∃ n1 data, decode c = .ok (.absorb n1 data)) ↔ c.cmd &&& 0xFFFFFFCF = 0x00000002) ∧
    (decode c = .ok .final ↔ c.cmd &&& 0xFFFFFFFF = 0x00000003) ∧
    ((∃ idx, decode c = .ok (.rddig idx)) ↔ c.cmd &&& 0xFFFFF8FF = 0x00000004) ∧
    ((∃ idx, decode c = .ok (.rdhex idx)) ↔ c.cmd &&& 0xFFFFF0FF = 0x00000005) ∧
    (decode c = .ok .rdstat ↔ c.cmd &&& 0xFFFFFFFF = 0x00000006) ∧
    (∀ r₁ ∈ opcodeRows, ∀ r₂ ∈ opcodeRows, r₁.matchesWord c.cmd = true → r₂.matchesWord c.cmd = true → r₁ = r₂)

/-- R84: `N = zext(CMD[5:4]) + 1` is in 1..4, `IDX = zext(CMD[11:8])` is not scaled, RDDIG's is in 0..7, and a read command
reads word `IDX` or character group `IDX`. -/
def Obligations.ImmediatesAreUnsignedFields : Prop :=
  ∀ c : Command,
    (∀ n1 data, decode c = .ok (.absorb n1 data) →
      byteCount n1 = (c.cmd.extractLsb 5 4).toNat + 1 ∧ 1 ≤ byteCount n1 ∧ byteCount n1 ≤ 4) ∧
    (∀ idx, decode c = .ok (.rddig idx) → idx.toNat = (c.cmd.extractLsb 11 8).toNat ∧ idx.toNat < 8 ∧
      ∀ s : State, s.phase = .done → ∃ t, exec (.rddig idx) s = .next t ∧ some t.resp = s.chainH[idx.toNat]?) ∧
    (∀ idx, decode c = .ok (.rdhex idx) → idx.toNat = (c.cmd.extractLsb 11 8).toNat ∧
      ∀ s : State, s.phase = .done → ∃ t, exec (.rdhex idx) s = .next t ∧
        bytes32 t.resp = ((toHex (digestBytes s.chainH)).drop (4 * idx.toNat)).take 4)

/-- R86: the illegal words are exactly the listed ones; exactly 32 CMD words are legal, with 1, 1, 4, 1, 8, 16 and 1 of each
command; and an illegal word that is accepted raises ILLEGAL_CMD with no other effect. -/
def Obligations.IllegalWordsAreExactlyTheListed : Prop :=
  (∀ c : Command, (∃ e, decode c = .error e) ↔
    (7 ≤ (c.cmd.extractLsb 3 0).toNat ∨
      (c.cmd.extractLsb 31 12 ≠ 0 ∨ c.cmd.extractLsb 7 6 ≠ 0) ∨
      (c.cmd.extractLsb 5 4 ≠ 0 ∧ c.cmd.extractLsb 3 0 ≠ 2) ∨
      (c.cmd.extractLsb 11 8 ≠ 0 ∧ c.cmd.extractLsb 3 0 ≠ 4 ∧ c.cmd.extractLsb 3 0 ≠ 5) ∨
      (c.cmd.extractLsb 3 0 = 4 ∧ c.cmd.getLsbD 11 = true))) ∧
  (∃ legal : List Word, legal.Nodup ∧ legal.length = 32 ∧
    (∀ w data, w ∈ legal ↔ ∃ i, decode ⟨w, data⟩ = .ok i) ∧
    (legal.filter fun w => w.extractLsb 3 0 = 0).length = 1 ∧
    (legal.filter fun w => w.extractLsb 3 0 = 1).length = 1 ∧
    (legal.filter fun w => w.extractLsb 3 0 = 2).length = 4 ∧
    (legal.filter fun w => w.extractLsb 3 0 = 3).length = 1 ∧
    (legal.filter fun w => w.extractLsb 3 0 = 4).length = 8 ∧
    (legal.filter fun w => w.extractLsb 3 0 = 5).length = 16 ∧
    (legal.filter fun w => w.extractLsb 3 0 = 6).length = 1) ∧
  (∀ (c : Command) (e : IllegalWord) (s : State), decode c = .error e →
    dispatchCommand c s =
      .next (if s.err then { s with resp := 0 } else { s with err := true, cause := .illegalCmd, resp := 0 })) ∧
  (∀ (c : Command) (e : IllegalWord) (s : State), decode c = .error e → (s.accepts c = true ↔ s.busy = false))

/-- R81: no value of DATA makes a command illegal, every command but ABSORB ignores DATA, and ABSORB ignores the lanes below
its top `N`. -/
def Obligations.DataIsOnlyTheTopLanesOfAbsorb : Prop :=
  (∀ cmd d₁ d₂ e, decode ⟨cmd, d₁⟩ = .error e → decode ⟨cmd, d₂⟩ = .error e) ∧
  (∀ cmd d₁ d₂ s, cmd.extractLsb 3 0 ≠ 2 → dispatchCommand ⟨cmd, d₁⟩ s = dispatchCommand ⟨cmd, d₂⟩ s) ∧
  (∀ (n1 : BitVec 2) (d₁ d₂ : Word) (s : State),
    (∀ k, k ≤ n1.toNat → d₁.extractLsb' (24 - 8 * k) 8 = d₂.extractLsb' (24 - 8 * k) 8) →
      exec (.absorb n1 d₁) s = exec (.absorb n1 d₂) s)

/-- Words of 30_encoding.md R85 and R89, and the illegal words of 95_test_vectors.md section 6, written out. That the 64-bit word
holds CMD in bits 31..0 and DATA in bits 63..32, and that the 32-bit words have DATA 0, is the model's choice (log 11). -/
def Obligations.WordsOfTheSpecDecode : Prop :=
  decodeTableWord 32 0x00000000 = some .nop ∧ decodeTableWord 32 0x00000001 = some .init ∧
  decodeTableWord 64 0x4D6F7A6100000032 = some (.absorb 3 0x4D6F7A61) ∧
  decodeTableWord 32 0x00000003 = some .final ∧ decodeTableWord 32 0x00000704 = some (.rddig 7) ∧
  decodeTableWord 32 0x00000F05 = some (.rdhex 15) ∧ decodeTableWord 32 0x00000006 = some .rdstat ∧
  decodeTableWord 32 0x00000804 = none ∧ decodeTableWord 32 0x00000042 = none

/-! ### The datapath -/

/-- R120, R121: the small sigmas, bit by bit, with the rules' corner cases and examples. -/
def Obligations.SmallSigmasMixRotatedAndShiftedBits : Prop :=
  (∀ (x : Word) (i : Nat), i < 32 → (smallSigma0 x).getLsbD i =
    (x.getLsbD ((i + 7) % 32) ^^ x.getLsbD ((i + 18) % 32) ^^ (decide (i + 3 < 32) && x.getLsbD (i + 3)))) ∧
  (∀ (x : Word) (i : Nat), i < 32 → (smallSigma1 x).getLsbD i =
    (x.getLsbD ((i + 17) % 32) ^^ x.getLsbD ((i + 19) % 32) ^^ (decide (i + 10 < 32) && x.getLsbD (i + 10)))) ∧
  smallSigma0 0 = 0 ∧ smallSigma0 0xFFFFFFFF = 0x1FFFFFFF ∧ smallSigma0 1 = 0x02004000 ∧
  smallSigma1 0 = 0 ∧ smallSigma1 0xFFFFFFFF = 0x003FFFFF ∧ smallSigma1 1 = 0x0000A000

/-- R140, R141: the big sigmas, bit by bit, with the rules' corner cases and examples. -/
def Obligations.BigSigmasMixRotatedBits : Prop :=
  (∀ (x : Word) (i : Nat), i < 32 → (bigSigma0 x).getLsbD i =
    (x.getLsbD ((i + 2) % 32) ^^ x.getLsbD ((i + 13) % 32) ^^ x.getLsbD ((i + 22) % 32))) ∧
  (∀ (x : Word) (i : Nat), i < 32 → (bigSigma1 x).getLsbD i =
    (x.getLsbD ((i + 6) % 32) ^^ x.getLsbD ((i + 11) % 32) ^^ x.getLsbD ((i + 25) % 32))) ∧
  bigSigma0 0 = 0 ∧ bigSigma0 0xFFFFFFFF = 0xFFFFFFFF ∧ bigSigma0 1 = 0x40080400 ∧
  bigSigma1 0 = 0 ∧ bigSigma1 0xFFFFFFFF = 0xFFFFFFFF ∧ bigSigma1 1 = 0x04200080

/-- R142, R143: choose and majority, bit by bit, with the rules' corner cases and examples. -/
def Obligations.ChooseAndMajorityActBitwise : Prop :=
  (∀ (x y z : Word) (i : Nat), (ch x y z).getLsbD i = if x.getLsbD i then y.getLsbD i else z.getLsbD i) ∧
  (∀ (x y z : Word) (i : Nat), (maj x y z).getLsbD i =
    decide (2 ≤ (x.getLsbD i).toNat + (y.getLsbD i).toNat + (z.getLsbD i).toNat)) ∧
  (∀ y z : Word, ch 0xFFFFFFFF y z = y ∧ ch 0 y z = z) ∧
  (∀ x z : Word, maj x x z = x ∧ maj 0 0xFFFFFFFF z = z) ∧
  ch 0xFF00FF00 0x12345678 0x9ABCDEF0 = 0x12BC56F0 ∧ maj 0xFF00FF00 0x12345678 0x9ABCDEF0 = 0x9A34DE70

/-- R122: the first 16 words are the block's bytes read big-endian, and every later word comes from the four words `j-2`,
`j-7`, `j-15` and `j-16`; an all-zero block gives the all-zero schedule. -/
def Obligations.ScheduleFollowsTheRecurrence : Prop :=
  (∀ (blk : Block) (j : Nat) (h : j < 16), (schedule blk)[j] =
    be32 blk[4 * j] blk[4 * j + 1] blk[4 * j + 2] blk[4 * j + 3]) ∧
  (∀ (blk : Block) (j : Nat) (h₁ : 16 ≤ j) (h₂ : j < 64), (schedule blk)[j] =
    smallSigma1 (schedule blk)[j - 2] + (schedule blk)[j - 7] + smallSigma0 (schedule blk)[j - 15]
      + (schedule blk)[j - 16]) ∧
  (∀ (j : Nat) (h : j < 64), (schedule (Vector.replicate 64 0))[j] = 0) ∧
  (∀ blk ∈ blocks (pad [0x4D, 0x6F, 0x7A, 0x61, 0x72, 0x74]),
    (schedule blk)[0] = 0x4D6F7A61 ∧ (schedule blk)[1] = 0x72748000 ∧
    (∀ (j : Nat) (h : j < 15), 2 ≤ j → (schedule blk)[j] = 0) ∧ (schedule blk)[15] = 0x00000030)

/-- R145: one round, in the rule's own names, with its example and its wrapping sum. -/
def Obligations.RoundRenamesAndAddsT1T2 : Prop :=
  (∀ a b c d e f g h k w : Word,
    let t1 := h + bigSigma1 e + ch e f g + k + w
    let t2 := bigSigma0 a + maj a b c
    round #v[a, b, c, d, e, f, g, h] k w = #v[t1 + t2, a, b, c, d + t1, e, f, g]) ∧
  (∀ e f g k w : Word, bigSigma1 e = 1 → ch e f g = 1 → k = 1 → w = 1 →
    ∀ a b c d : Word, roundT1 #v[a, b, c, d, e, f, g, 0xFFFFFFFF] k w = 3) ∧
  (round iv 0x428A2F98 0x80000000)[0] = 0x7C08884D ∧ (round iv 0x428A2F98 0x80000000)[4] = 0x18C7E2A2

/-- R146: the mixer adds each of the eight words on its own, modulo 2^32, with no carry between words. -/
def Obligations.MixAddsWordByWord : Prop :=
  (∀ (hin v : Words8) (i : Nat) (h : i < 8), (mix hin v)[i].toNat = (hin[i].toNat + v[i].toNat) % 2 ^ 32) ∧
  (∀ (hin v : Words8), hin[0] = 0x6A09E667 → v[0] = 0x79A6DDDB → (mix hin v)[0] = 0xE3B0C442)

/-- R147: `compress` is 64 rounds from `v = Hin`, round `t` with `K[t]` and `W[t]`, and then the mixer; and its example. -/
def Obligations.CompressIsSixtyFourRoundsThenMix : Prop :=
  (∀ (hin : Words8) (w : Words64), compress hin w =
    mix hin ((List.finRange 64).foldl (fun v t => round v kRom[t] w[t]) hin)) ∧
  (∀ blk ∈ blocks (pad []), compress iv (schedule blk) =
    #v[0xE3B0C442, 0x98FC1C14, 0x9AFBF4C8, 0x996FB924, 0x27AE41E4, 0x649B934C, 0xA495991B, 0x7852B855])

/-- R32: the initialization vector is the first 32 bits of the fractional parts of the square roots of the first eight primes,
as the rule's table writes them, and INIT copies it into `H`. -/
def Obligations.InitializationVectorIsSquareRootFractions : Prop :=
  (∀ (i : Fin 8), iv[i].toNat = Nat.sqrt (#v[2, 3, 5, 7, 11, 13, 17, 19][i] * 2 ^ 64) % 2 ^ 32) ∧
  iv = #v[0x6A09E667, 0xBB67AE85, 0x3C6EF372, 0xA54FF53A, 0x510E527F, 0x9B05688C, 0x1F83D9AB, 0x5BE0CD19] ∧
  (∀ s : State, ∃ t, exec .init s = .next t ∧ t.chainH = iv)

/-- R33: the constant ROM is the first 32 bits of the fractional parts of the cube roots of the first 64 primes. -/
def Obligations.ConstantRomIsCubeRootFractions : Prop :=
  ∀ i : Fin 64, ∃ r : Nat,
    r ^ 3 ≤ Nat.nth Nat.Prime i.val * 2 ^ 96 ∧ Nat.nth Nat.Prime i.val * 2 ^ 96 < (r + 1) ^ 3 ∧
      kRom[i].toNat = r % 2 ^ 32

/-! ### The padder -/

/-- R100: the message, the marker byte, the fewest zero bytes that reach 448 mod 512 bits, and the bit length as eight
big-endian bytes; with the rule's corner cases and example. -/
def Obligations.PadIsMessageMarkerZerosLength : Prop :=
  (∀ m : List Byte, m.length ≤ 2 ^ 61 - 1 → ∃ z lengthField,
    pad m = m ++ [0x80] ++ List.replicate z 0 ++ lengthField ∧
    z ≤ 63 ∧ (m.length + 1 + z) % 64 = 56 ∧
    lengthField.length = 8 ∧ lengthField.foldl (fun acc b => acc * 256 + b.toNat) 0 = 8 * m.length ∧
    (m.length % 64 = 55 → z = 0) ∧ (m.length % 64 = 56 → z = 63)) ∧
  pad [] = [0x80] ++ List.replicate 55 0 ++ [0, 0, 0, 0, 0, 0, 0, 0]

/-- R101, R103, R106, R233: the padded length is a multiple of 64, and its number of blocks is `floor((len + 8) / 64) + 1`,
which is one more than the full blocks, or two more from 56 bytes on. -/
def Obligations.PaddedLengthGivesTheBlockCount : Prop :=
  ∀ m : List Byte,
    (pad m).length = 64 * ((m.length + 8) / 64 + 1) ∧
    (blocks (pad m)).length = (m.length + 8) / 64 + 1 ∧
    (m.length % 64 ≤ 55 → (blocks (pad m)).length = m.length / 64 + 1) ∧
    (56 ≤ m.length % 64 → (blocks (pad m)).length = m.length / 64 + 2)

/-- R104: the padded tail holds the partial block, the marker, zeros and the length field, in one block up to 55 bytes and in
two from 56. -/
def Obligations.PadTailIsOneOrTwoBlocks : Prop :=
  ∀ (p : List Byte) (l : DWord), p.length < 64 →
    (padTail p l).flatMap (fun b => b.toList) =
      p ++ [0x80] ++ List.replicate ((119 - p.length) % 64) 0 ++ bytes64 l ∧
    (p.length ≤ 55 → (padTail p l).length = 1) ∧ (56 ≤ p.length → (padTail p l).length = 2)

/-- R105, the part about functions: the full blocks of the message, then the padded tail of what is left, are the blocks of
the padded message. -/
def Obligations.FullBlocksThenTailAreThePaddedBlocks : Prop :=
  ∀ m : List Byte, m.length ≤ 2 ^ 61 - 1 →
    blocks (pad m) = (List.range (m.length / 64)).map (fun q => Vector.ofFn fun i => m.getD (64 * q + i.val) 0)
      ++ padTail (m.drop (64 * (m.length / 64))) (BitVec.ofNat 64 (8 * m.length))

/-! ### The digest and the hex string -/

/-- R63, R180: the digest is the eight words as big-endian bytes in word order; and R180's example. -/
def Obligations.DigestBytesAreBigEndian : Prop :=
  (∀ h : Words8, (digestBytes h).length = 32) ∧
  (∀ (h : Words8) (i : Fin 8) (k : Fin 4),
    (digestBytes h)[4 * i.val + k.val]? = some (h[i].extractLsb' (24 - 8 * k.val) 8)) ∧
  (∀ h : Words8, h[0] = 0xE3B0C442 → (digestBytes h).take 4 = [0xE3, 0xB0, 0xC4, 0x42])

/-- R182, R183: the hex digits are the ASCII codes of `0`-`9` and `a`-`f`; each byte gives two, the high nibble first, and
leading zeros are kept. -/
def Obligations.HexIsTwoLowercaseDigitsPerByte : Prop :=
  (∀ n : BitVec 4, (n.toNat ≤ 9 → (hexchar n).toNat = 0x30 + n.toNat) ∧
    (10 ≤ n.toNat → (hexchar n).toNat = 0x61 + (n.toNat - 10))) ∧
  (∀ bs : List Byte, (toHex bs).length = 2 * bs.length) ∧
  (∀ (bs : List Byte) (k : Nat) (b : Byte), bs[k]? = some b →
    (toHex bs)[2 * k]? = some (hexchar (b.extractLsb' 4 4)) ∧
    (toHex bs)[2 * k + 1]? = some (hexchar (b.extractLsb' 0 4))) ∧
  toHex [0x00] = [0x30, 0x30] ∧ toHex [0x0F] = [0x30, 0x66] ∧ toHex [0xA5] = [0x61, 0x35] ∧
  toHex [0xFF] = [0x66, 0x66] ∧
  toHex [0xE3, 0xB0, 0xC4, 0x42] = [0x65, 0x33, 0x62, 0x30, 0x63, 0x34, 0x34, 0x32]

/-- R185: character `c` of the hex string comes from `H[c div 8]`, bits `[31 - 4(c mod 8) : 28 - 4(c mod 8)]`. -/
def Obligations.HexCharacterComesFromItsNibble : Prop :=
  ∀ (h : Words8) (c : Nat) (hc : c < 64),
    (toHex (digestBytes h))[c]? = some (hexchar (h[c / 8].extractLsb' (28 - 4 * (c % 8)) 4))

/-- R184: for every message the hex string has exactly 64 characters, each one of `0`-`9` or `a`-`f`. -/
def Obligations.HexStringHasSixtyFourCharacters : Prop :=
  ∀ m : List Byte, hash256HexString m = toHex (digest m) ∧ (hash256HexString m).length = 64 ∧ (digest m).length = 32 ∧
    ∀ x ∈ hash256HexString m, (0x30 ≤ x.toNat ∧ x.toNat ≤ 0x39) ∨ (0x61 ≤ x.toNat ∧ x.toNat ≤ 0x66)

/-! ### The commands: what each does, where it completes, and what it leaves unchanged -/

/-- R210: NOP, whatever DATA is, answers 0 and changes nothing else, STATUS neither; it is accepted while BUSY = 1, and from
reset it leaves STATUS 0. -/
def Obligations.NopOnlyAnswersZero : Prop :=
  (∀ data, decode ⟨0x00000000, data⟩ = .ok .nop) ∧
  (∀ s : State, ∃ t, exec .nop s = .next t ∧ t = { s with resp := 0 } ∧ t.status = s.status) ∧
  (∀ (s : State) (data : Word), s.accepts ⟨0x00000000, data⟩ = true) ∧
  (∃ t, exec .nop State.reset = .next t ∧ t.resp = 0 ∧ t.status = 0x00000000)

/-- R212: INIT, in every phase, loads `H`, clears the counters and the error and opens a message; `buf` and all the rest stay.
RDDIG and RDHEX then raise SEQ_ERR. It is the only command that clears ERR. From reset STATUS is 0x00000004. -/
def Obligations.InitStartsAMessage : Prop :=
  (∀ data, decode ⟨0x00000001, data⟩ = .ok .init) ∧
  (∀ s : State, ∃ t, exec .init s = .next t ∧
    t = { s with chainH := iv, len := 0, fill := 0, phase := .absorb, err := false, cause := .noError, resp := 0 } ∧
    t.status.extractLsb 18 1 = 2#18 ∧
    (∀ idx : BitVec 4, idx.toNat < 8 → exec (.rddig idx) t = .next (t.raise .seqErr)) ∧
    (∀ idx : BitVec 4, exec (.rdhex idx) t = .next (t.raise .seqErr))) ∧
  (∀ (i : Instr) (s t : State), exec i s = .next t → s.err = true → t.err = false → i = .init) ∧
  (∃ t, exec .init State.reset = .next t ∧ t.status = 0x00000004 ∧ t.chainH = iv)

/-- R214, R64: an ABSORB in phase ABSORB whose bytes fit takes its `N` bytes from the top lanes of DATA, in order, into
`buf[fill..]` and around, counts them, and queues a copy of the block as it fills; nothing else changes. In any other phase it
raises SEQ_ERR, and past `MAX_MSG_BYTES` LEN_OVF, and takes no byte. -/
def Obligations.AbsorbTakesItsBytesInOrder : Prop :=
  ∀ (n1 : BitVec 2) (data : Word) (s : State),
    (s.phase = .absorb → s.len + (n1.toNat + 1) ≤ 2 ^ 61 - 1 →
      ∃ t, exec (.absorb n1 data) s = .next t ∧
        t = { s with buf := t.buf, fill := t.fill, len := t.len, pend := t.pend, resp := 0 } ∧
        t.len = s.len + (n1.toNat + 1) ∧
        t.fill.val = (s.fill.val + (n1.toNat + 1)) % 64 ∧
        (∀ (i : Nat) (h : i < 64), t.buf[i] =
          if (i + 64 - s.fill.val) % 64 ≤ n1.toNat
          then data.extractLsb' (24 - 8 * ((i + 64 - s.fill.val) % 64)) 8 else s.buf[i]) ∧
        (s.fill.val + (n1.toNat + 1) < 64 → t.pend = s.pend) ∧
        (64 ≤ s.fill.val + (n1.toNat + 1) → ∃ blk : Block, t.pend = s.pend ++ [blk] ∧
          ∀ (i : Nat) (h : i < 64), blk[i] =
            if i < s.fill.val then s.buf[i] else data.extractLsb' (24 - 8 * (i - s.fill.val)) 8)) ∧
    (s.phase ≠ .absorb → exec (.absorb n1 data) s = .next (s.raise .seqErr)) ∧
    (s.phase = .absorb → s.len + (n1.toNat + 1) > 2 ^ 61 - 1 →
      exec (.absorb n1 data) s = .next (s.raise .lenOvf))

/-- R218: FINAL in phase ABSORB queues the padded tail of the partial block, one block up to 55 bytes and two from 56, and
closes the message; `len` and all the rest stay. Of `buf` this says nothing (log 5). In any other phase it raises SEQ_ERR. -/
def Obligations.FinalQueuesThePaddedTail : Prop :=
  (∀ data, decode ⟨0x00000003, data⟩ = .ok .final) ∧
  (∀ (s : State) (p : List Byte), p.length = s.fill.val → (∀ (i : Nat) (h : i < 64), i < s.fill.val → p[i]? = some s.buf[i]) →
    s.phase = .absorb →
    ∃ t, exec .final s = .next t ∧
      t = { s with
        buf := t.buf, pend := s.pend ++ padTail p (BitVec.ofNat 64 (8 * s.len)), fill := 0, phase := .finalizing, resp := 0 } ∧
      t.busy = true ∧
      t.pend.length = s.pend.length + (if s.fill.val ≤ 55 then 1 else 2)) ∧
  (∀ s : State, s.phase ≠ .absorb → exec .final s = .next (s.raise .seqErr))

/-- R222, R65: RDDIG in phase DONE answers word `H[i]`, whose byte lanes are digest bytes `4i` to `4i+3`, and changes nothing
else; in any other phase it raises SEQ_ERR; it is held while BUSY = 1. -/
def Obligations.RddigReadsADigestWord : Prop :=
  (∀ (i : Fin 8) (data : Word),
    decode ⟨0x00000004 ||| (BitVec.ofNat 32 i.val <<< 8), data⟩ = .ok (.rddig (BitVec.ofNat 4 i.val))) ∧
  (∀ (s : State) (i : Fin 8), s.phase = .done →
    exec (.rddig (BitVec.ofNat 4 i.val)) s = .next { s with resp := s.chainH[i] } ∧
    bytes32 s.chainH[i] = ((digestBytes s.chainH).drop (4 * i.val)).take 4) ∧
  (∀ (s : State) (i : Fin 8), s.phase ≠ .done →
    exec (.rddig (BitVec.ofNat 4 i.val)) s = .next (s.raise .seqErr)) ∧
  (∀ (s : State) (c : Command) (idx : BitVec 4), decode c = .ok (.rddig idx) → s.busy = true → s.accepts c = false)

/-- R225, R65: RDHEX in phase DONE answers four characters: those of `H[j div 2][31:16]` for even `j` and of
`H[j div 2][15:0]` for odd `j`, the first most significant, each an ASCII code of `0`-`9` or `a`-`f`; nothing else changes. In
any other phase it raises SEQ_ERR. -/
def Obligations.RdhexReadsFourCharacters : Prop :=
  (∀ (j : Fin 16) (data : Word),
    decode ⟨0x00000005 ||| (BitVec.ofNat 32 j.val <<< 8), data⟩ = .ok (.rdhex (BitVec.ofNat 4 j.val))) ∧
  (∀ (s : State) (j : Fin 16), s.phase = .done →
    ∃ x, exec (.rdhex (BitVec.ofNat 4 j.val)) s = .next { s with resp := x } ∧
      bytes32 x = ((toHex (digestBytes s.chainH)).drop (4 * j.val)).take 4 ∧
      (∀ (q : Nat), q < 4 → x.extractLsb' (24 - 8 * q) 8 =
        hexchar ((s.chainH[j.val / 2]'(by omega)).extractLsb' (28 - 4 * (4 * (j.val % 2) + q)) 4)) ∧
      (∀ b ∈ bytes32 x, (0x30 ≤ b.toNat ∧ b.toNat ≤ 0x39) ∨ (0x61 ≤ b.toNat ∧ b.toNat ≤ 0x66))) ∧
  (∀ (s : State) (j : Fin 16), s.phase ≠ .done →
    exec (.rdhex (BitVec.ofNat 4 j.val)) s = .next (s.raise .seqErr))

/-- R228, R43: RDSTAT answers the STATUS word, field by field, and changes nothing else; it is accepted while BUSY = 1. -/
def Obligations.RdstatReadsEveryStatusField : Prop :=
  (∀ data, decode ⟨0x00000006, data⟩ = .ok .rdstat) ∧
  (∀ s : State, ∃ x, exec .rdstat s = .next { s with resp := x } ∧
    (x.getLsbD 0 = true ↔ s.pend ≠ []) ∧
    (x.getLsbD 1 = true ↔ s.phase = .done) ∧
    x.extractLsb' 2 2 = (match s.phase with | .idle => 0 | .absorb => 1 | .finalizing => 2 | .done => 3) ∧
    (x.extractLsb' 4 6).toNat = s.fill.val ∧
    x.extractLsb' 10 6 = 0 ∧
    x.getLsbD 16 = s.err ∧
    x.extractLsb' 17 2 = (match s.cause with | .noError => 0 | .illegalCmd => 1 | .seqErr => 2 | .lenOvf => 3) ∧
    x.extractLsb' 19 13 = 0) ∧
  (∀ (s : State) (data : Word), s.accepts ⟨0x00000006, data⟩ = true) ∧
  State.reset.status = 0x00000000

/-- R202, R44: an accepted command answers exactly once: RESP goes back to HOST once in a HOST step, a read that does not raise
answers the value it reads, every other outcome answers 0, and a CORE step never answers. -/
def Obligations.EveryAcceptedCommandAnswersOnce : Prop :=
  (∀ (c : Command) (s t : State), hostStep c s = .next t → t.returned = s.returned ++ [t.resp]) ∧
  (∀ (c : Command) (s t : State), dispatchCommand c s = .next t →
    match decode c with
    | .ok (.rddig idx) => if s.phase = .done then some t.resp = s.chainH[idx.toNat]? else t.resp = 0
    | .ok (.rdhex idx) =>
      if s.phase = .done
      then bytes32 t.resp = ((toHex (digestBytes s.chainH)).drop (4 * idx.toNat)).take 4
      else t.resp = 0
    | .ok .rdstat => t.resp = s.status
    | _ => t.resp = 0) ∧
  (∀ s t : State, countedCoreStep s = .next t → t.resp = s.resp ∧ t.returned = s.returned)

/-- R263, R234: `raise` records the cause where no error is recorded yet, answers 0, and leaves everything else as it is; the command
that raised has left the port and answers 0; and a recorded error changes nothing of what a later command does but the error itself
and the STATUS that RDSTAT reads. -/
def Obligations.RaiseRecordsTheFirstCause : Prop :=
  (∀ (s : State) (c : Cause),
    s.raise c = { s with err := true, cause := if s.err then s.cause else c, resp := 0 } ∧
    (c ≠ .noError → (s.err = true ↔ s.cause ≠ .noError) → ((s.raise c).err = true ↔ (s.raise c).cause ≠ .noError))) ∧
  (∀ (s : State) (c : Command) (cause : Cause), dispatchCommand c s.takeCommand = .next (s.takeCommand.raise cause) →
    hostStep c s = .next { s with
      err := true, cause := if s.err then s.cause else cause, resp := 0,
      port := s.port.tail, returned := s.returned ++ [0], polls := s.takeCommand.polls }) ∧
  (∀ (i : Instr) (s t : State) (e : Bool) (c : Cause), exec i s = .next t →
    ∃ t', exec i { s with err := e, cause := c } = .next t' ∧
      t' = { t with err := t'.err, cause := t'.cause, resp := t'.resp } ∧ (i ≠ .rdstat → t'.resp = t.resp))

/-- R265: ABSORB and FINAL outside phase ABSORB, and RDDIG and RDHEX outside phase DONE, raise SEQ_ERR and do nothing else; no other
command newly raises SEQ_ERR, and these four do not in their own phase. -/
def Obligations.WrongPhaseRaisesSeqErr : Prop :=
  ∀ s : State,
    (s.phase ≠ .absorb →
      (∀ n1 data, exec (.absorb n1 data) s =
        .next { s with err := true, cause := if s.err then s.cause else .seqErr, resp := 0 }) ∧
      exec .final s = .next { s with err := true, cause := if s.err then s.cause else .seqErr, resp := 0 }) ∧
    (s.phase ≠ .done →
      (∀ idx : BitVec 4, idx.toNat < 8 → exec (.rddig idx) s =
        .next { s with err := true, cause := if s.err then s.cause else .seqErr, resp := 0 }) ∧
      (∀ idx, exec (.rdhex idx) s =
        .next { s with err := true, cause := if s.err then s.cause else .seqErr, resp := 0 })) ∧
    (∀ (i : Instr) (t : State), i.wellFormed = true → exec i s = .next t → t.cause = .seqErr → t.cause ≠ s.cause →
      (∃ n1 data, i = .absorb n1 data ∧ s.phase ≠ .absorb) ∨ (i = .final ∧ s.phase ≠ .absorb) ∨
      (∃ idx, i = .rddig idx ∧ s.phase ≠ .done) ∨ (∃ idx, i = .rdhex idx ∧ s.phase ≠ .done))

/-- R266: an ABSORB that would pass `MAX_MSG_BYTES` = 2^61 - 1 raises LEN_OVF and takes none of its bytes, and no other command
raises LEN_OVF. -/
def Obligations.OverlongAbsorbRaisesLenOvf : Prop :=
  (∀ (s : State) (n1 : BitVec 2) (data : Word), s.phase = .absorb → s.len + (n1.toNat + 1) > 2 ^ 61 - 1 →
    exec (.absorb n1 data) s = .next { s with err := true, cause := if s.err then s.cause else .lenOvf, resp := 0 }) ∧
  (∀ (i : Instr) (s t : State), exec i s = .next t → t.cause = .lenOvf → s.cause ≠ .lenOvf →
    ∃ n1 data, i = .absorb n1 data ∧ s.phase = .absorb ∧ s.len + (n1.toNat + 1) > 2 ^ 61 - 1)

/-- R267: within one command ILLEGAL_CMD comes before SEQ_ERR, and SEQ_ERR before LEN_OVF. -/
def Obligations.CausesArePrioritised : Prop :=
  (∀ (c : Command) (e : IllegalWord) (s : State), s.err = false → decode c = .error e →
    ∃ t, dispatchCommand c s = .next t ∧ t.cause = .illegalCmd) ∧
  (∀ (s : State) (n1 : BitVec 2) (data : Word), s.err = false → s.phase ≠ .absorb →
    s.len + (n1.toNat + 1) > 2 ^ 61 - 1 → ∃ t, exec (.absorb n1 data) s = .next t ∧ t.cause = .seqErr)

/-- R262, R261: which command can newly record which cause, over all states in which an accepted command can find the machine
(BUSY = 0, or NOP or RDSTAT). The machine's invariant is assumed, which rules FINALIZING out where BUSY = 0. -/
def Obligations.CommandsRaiseOnlyTheirCauses : Prop :=
  ∀ (c : Command) (s t : State), s.Inv → s.accepts c = true → s.err = false → dispatchCommand c s = .next t → t.err = true →
    match decode c with
    | .error _ => t.cause = .illegalCmd
    | .ok (.absorb n1 _) =>
      (t.cause = .seqErr ∧ (s.phase = .idle ∨ s.phase = .done)) ∨
      (t.cause = .lenOvf ∧ s.phase = .absorb ∧ s.len + (n1.toNat + 1) > 2 ^ 61 - 1)
    | .ok .final => t.cause = .seqErr ∧ (s.phase = .idle ∨ s.phase = .done)
    | .ok (.rddig _) => t.cause = .seqErr ∧ (s.phase = .idle ∨ s.phase = .absorb)
    | .ok (.rdhex _) => t.cause = .seqErr ∧ (s.phase = .idle ∨ s.phase = .absorb)
    | .ok .nop => False
    | .ok .init => False
    | .ok .rdstat => False

/-- R69, R263, R34: FRAME of the commands that only answer (NOP, RDDIG, RDHEX, RDSTAT, in every phase): nothing but `resp`,
`err` and `cause` changes, and `err` and `cause` only where the command raises. -/
def Obligations.ReadCommandsLeaveTheRestUnchanged : Prop :=
  ∀ (i : Instr) (s t : State),
    (i = .nop ∨ (∃ idx, i = .rddig idx) ∨ (∃ idx, i = .rdhex idx) ∨ i = .rdstat) → exec i s = .next t →
    t = { s with err := t.err, cause := t.cause, resp := t.resp } ∧
    (s.phase = .done → i.wellFormed = true → t.err = s.err ∧ t.cause = s.cause)

/-- R212, R214, R218, R263: FRAME of INIT, ABSORB and FINAL, in every state in which they go on: INIT leaves `buf`, `pend` and
the core's registers; ABSORB leaves `H`, `phase` and the core's registers, and adds at most one block at the end of `pend`;
FINAL leaves `H`, `len` and the core's registers, only adds at the end of `pend`, and leaves each byte of `buf` as it was or as the
tail blocks it adds have it (which, is the free value of log 5); none of them touches the port. -/
def Obligations.MessageCommandsLeaveTheRestUnchanged : Prop :=
  ∀ (s t : State),
    (exec .init s = .next t → t = { s with
      chainH := t.chainH, len := t.len, fill := t.fill, phase := t.phase, err := t.err, cause := t.cause, resp := t.resp }) ∧
    (∀ n1 data, exec (.absorb n1 data) s = .next t → t = { s with
      buf := t.buf, fill := t.fill, len := t.len, pend := t.pend, err := t.err, cause := t.cause, resp := t.resp } ∧
      (t.pend = s.pend ∨ ∃ blk, t.pend = s.pend ++ [blk])) ∧
    (exec .final s = .next t → t = { s with
      buf := t.buf, fill := t.fill, phase := t.phase, pend := t.pend, err := t.err, cause := t.cause, resp := t.resp } ∧
      ∃ tail, t.pend = s.pend ++ tail ∧
        ∀ (i : Nat) (h : i < 64), t.buf[i] = s.buf[i] ∨ ∃ blk ∈ tail, t.buf[i] = blk[i])

/-! ### The CORE agent -/

/-- R148: CSTART loads the schedule and the working variables of the head block, and leaves `pend`, `H` and BUSY. -/
def Obligations.CstartLoadsTheHeadBlock : Prop :=
  ∀ (s : State) (blk : Block) (rest : List Block),
    s.run = false → s.pend = blk :: rest →
    ∃ t, coreStep s = .next t ∧
      t = { s with w := schedule blk, v := s.chainH, t := 0, run := true } ∧ t.busy = true

/-- R149, R144: CROUND `t`, for each `t < 64`, does one round with `K[t]` and `W[t]` and counts it; at `t = 64` it is disabled. -/
def Obligations.CroundDoesRoundT : Prop :=
  (∀ (s : State) (hn : s.t.val < 64), s.run = true →
    ∃ n' : Fin 65, n'.val = s.t.val + 1 ∧
      coreStep s = .next { s with v := round s.v kRom[s.t.val] s.w[s.t.val], t := n' }) ∧
  (∀ s t : State, s.run = true → coreStep s = .next t →
    (s.t.val < 64 → t.run = true ∧ t.pend = s.pend) ∧ (s.t.val = 64 → t.run = false ∧ t.t = s.t))

/-- R150: CMIX adds the working variables into `H`, retires the head block, and ends a finalizing message where `pend` becomes
empty; STATUS shows BUSY, DVALID and PHASE accordingly. -/
def Obligations.CmixRetiresTheHeadBlock : Prop :=
  ∀ (s : State) (blk : Block) (rest : List Block),
    s.run = true → s.t = 64 → s.pend = blk :: rest →
    ∃ t, coreStep s = .next t ∧
      t = { s with
        chainH := mix s.chainH s.v, pend := rest, run := false,
        phase := if rest = [] ∧ s.phase = .finalizing then .done else s.phase } ∧
      (t.busy = true ↔ rest ≠ []) ∧
      (s.phase = .finalizing → rest = [] → t.dvalid = true ∧ t.phase.code = 3)

/-- R151: from `run = 0` and a queued block, 66 CORE steps have exactly the effect of one step that compresses the block: `H`
becomes `compress(H, schedule(blk))`, the block leaves `pend`, and the phase follows R150. -/
def Obligations.SixtySixCoreStepsCompressOneBlock : Prop :=
  ∀ (s : State) (blk : Block) (rest : List Block),
    s.run = false → s.pend = blk :: rest →
    ∃ t, coreStepN 66 s = .next t ∧
      t = { s with
        chainH := compress s.chainH (schedule blk), pend := rest, run := false,
        phase := if rest = [] ∧ s.phase = .finalizing then .done else s.phase,
        t := t.t, v := t.v, w := t.w }

/-- R152: from any state a run can be in, CORE empties `pend` within 132 of its own steps, and it fails in none of them. -/
def Obligations.CoreEmptiesTheQueueWithin132Steps : Prop :=
  ∀ s : State, s.Inv → ∃ n t, n ≤ 132 ∧ coreStepN n s = .next t ∧ t.pend = []

/-- R140-R150, R260: FRAME of a CORE step, in every state: it leaves the message intake, the error, the response and the port
as they are, and it changes `phase` only from FINALIZING to DONE. -/
def Obligations.CoreStepsLeaveTheRestUnchanged : Prop :=
  ∀ s t : State, coreStep s = .next t →
    t = { s with chainH := t.chainH, phase := t.phase, pend := t.pend, run := t.run, t := t.t, v := t.v, w := t.w } ∧
    (t.phase = s.phase ∨ (s.phase = .finalizing ∧ t.phase = .done)) ∧
    (t.pend = s.pend ∨ t.pend = s.pend.tail)

/-! ### A step of the machine -/

/-- R200, R201: where HOST's command decodes to `i`, is accepted and HOST has the turn, a step takes the pair off the port,
runs `exec i`, and returns RESP. The turn is the model's convention (log 2): HOST has it where CORE has no step, or while
`Config.hostTurns` still gives it one. -/
def Obligations.StepExecutesTheAcceptedCommand : Prop :=
  ∀ (s : State) (c : Command) (rest : List Command) (i : Instr),
    s.resetPin = false → s.port = c :: rest → decode c = .ok i → (s.busy = false ∨ i = .nop ∨ i = .rdstat) →
    ((s.run = false ∧ s.busy = false) ∨ s.polls < Config.hostTurns s.coreSteps) →
    step s =
      match exec i { s with port := rest, polls := if s.run || s.busy then s.polls + 1 else s.polls } with
      | .next t => .next { t with returned := t.returned ++ [t.resp] }
      | .fault e => .fault e
      | .refused e => .refused e

/-- R200, R201, R264: an illegal word is accepted only where BUSY = 0, and then the step raises ILLEGAL_CMD, with no other
effect on the elements of R30, and returns 0. -/
def Obligations.StepRaisesIllegalCmd : Prop :=
  ∀ (s : State) (c : Command) (rest : List Command) (e : IllegalWord),
    s.resetPin = false → s.port = c :: rest → decode c = .error e →
    (s.busy = true → s.accepts c = false ∧ step s = countedCoreStep s) ∧
    (s.busy = false → s.run = false →
      step s = .next { s with
        port := rest, err := true, cause := if s.err then s.cause else .illegalCmd, resp := 0,
        returned := s.returned ++ [0] })

/-- R200: a pair is accepted exactly where BUSY = 0 or it is NOP or RDSTAT; a held pair stays on the port while CORE steps, it
has no effect and returns nothing; and the hold lifts within 132 steps. -/
def Obligations.HeldCommandsWaitForCore : Prop :=
  (∀ (s : State) (c : Command),
    s.accepts c = true ↔ (s.busy = false ∨ decode c = .ok .nop ∨ decode c = .ok .rdstat)) ∧
  (∀ (s : State) (c : Command) (rest : List Command),
    s.resetPin = false → s.port = c :: rest → s.accepts c = false → step s = countedCoreStep s) ∧
  (∀ (s t : State) (c : Command) (rest : List Command),
    s.resetPin = false → s.port = c :: rest → s.accepts c = false → step s = .next t →
    t.port = s.port ∧ t.returned = s.returned ∧ t.resp = s.resp ∧ t.buf = s.buf ∧ t.fill = s.fill ∧ t.len = s.len ∧
      t.err = s.err ∧ t.cause = s.cause) ∧
  (∀ (s : State) (c : Command) (rest : List Command),
    s.Inv → s.resetPin = false → s.port = c :: rest → s.accepts c = false →
    ∃ n t, n ≤ 132 ∧ stepN n s = .next t ∧ t.port = c :: rest ∧ t.returned = s.returned ∧ t.accepts c = true) ∧
  (∀ (s : State) (c : Command) (e : IllegalWord), decode c = .error e → s.accepts c = true →
    dispatchCommand c s = .next (s.raise .illegalCmd))

/-- R300: reset, asserted in any state, sets every element to which R300 gives a value: counters 0, IDLE, nothing queued, no error. Of
`H`, `buf`, `t`, `v` and `W`, which it leaves unspecified, this says nothing (log 4). The last clause is the model's choice (log 3): of
HOST's list the held pair is dropped (R300: not executed; I13), and its later pairs stay, of which the spec says nothing. -/
def Obligations.ResetSetsEverySpecifiedElement : Prop :=
  ∀ s : State, s.resetPin = true →
    ∃ t, step s = .next t ∧
      t.fill = 0 ∧ t.len = 0 ∧ t.phase = .idle ∧ t.pend = [] ∧ t.run = false ∧ t.err = false ∧ t.cause = .noError ∧
      t.resp = 0 ∧
      (∀ c rest, s.port = c :: rest → s.accepts c = false → t.port = rest)

/-- R301: after reset STATUS reads 0 and every pair is accepted; INIT opens a message; ABSORB, FINAL, RDDIG and RDHEX raise SEQ_ERR;
NOP and RDSTAT answer 0 and record no error; and no pair but INIT, an illegal one neither, leaves phase IDLE. -/
def Obligations.AfterResetOnlyInitOpensAMessage : Prop :=
  State.reset.status = 0x00000000 ∧
  (∀ c, State.reset.accepts c = true) ∧
  (∀ i : Instr, i.wellFormed = true → i ≠ .nop → i ≠ .init → i ≠ .rdstat →
    ∃ t, exec i State.reset = .next t ∧ t.phase = .idle ∧ t.err = true ∧ t.cause = .seqErr ∧ t.status = 0x00050000) ∧
  (∃ t, exec .init State.reset = .next t ∧ t.phase = .absorb ∧ t.err = false ∧ t.status = 0x00000004) ∧
  (∃ t, exec .nop State.reset = .next t ∧ t.phase = .idle ∧ t.err = false ∧ t.resp = 0 ∧ t.status = 0x00000000) ∧
  (∃ t, exec .rdstat State.reset = .next t ∧ t.phase = .idle ∧ t.err = false ∧ t.resp = 0 ∧ t.status = 0x00000000) ∧
  (∀ c : Command, decode c ≠ .ok .init → ∃ t, dispatchCommand c State.reset = .next t ∧ t.phase = .idle)

/-- R35: the encoding of `phase`, and that no step changes it but reset, INIT, FINAL and the CMIX that empties `pend`. -/
def Obligations.PhaseChangesOnlyAsListed : Prop :=
  (Phase.code .idle = 0 ∧ Phase.code .absorb = 1 ∧ Phase.code .finalizing = 2 ∧ Phase.code .done = 3) ∧
  (∀ s t : State, step s = .next t → t.phase ≠ s.phase →
    (s.resetPin = true ∧ t.phase = .idle) ∨
    (Accepted .init s t ∧ t.phase = .absorb) ∨
    (Accepted .final s t ∧ s.phase = .absorb ∧ t.phase = .finalizing) ∨
    (s.run = true ∧ s.t = 64 ∧ s.phase = .finalizing ∧ t.phase = .done ∧ t.pend = [])) ∧
  (∀ s t : State, s.resetPin = true → step s = .next t → t.phase = .idle) ∧
  (∀ s t : State, exec .init s = .next t → t.phase = .absorb) ∧
  (∀ s t : State, s.phase = .absorb → exec .final s = .next t → t.phase = .finalizing) ∧
  (∀ s t : State, s.run = true → s.t = 64 → s.phase = .finalizing → coreStep s = .next t → t.pend = [] →
    t.phase = .done) ∧
  (∀ (s : State) (c : Cause), (s.raise c).phase = s.phase)

/-- R36: `len` counts the bytes absorbed: an accepted ABSORB adds one for each byte it takes, none where it is refused; INIT and reset
clear it; nothing else changes it; and it never passes 2^61 - 1 where it was not past it before. -/
def Obligations.LenCountsAbsorbedBytes : Prop :=
  ∀ s t : State, step s = .next t →
    (t.len ≠ s.len →
      (s.resetPin = true ∧ t.len = 0) ∨ (Accepted .init s t ∧ t.len = 0) ∨
      (∃ n1 data, Accepted (.absorb n1 data) s t ∧ t.len = s.len + (n1.toNat + 1))) ∧
    (∀ n1 data, Accepted (.absorb n1 data) s t →
      (s.phase = .absorb → s.len + (n1.toNat + 1) ≤ 2 ^ 61 - 1 → t.len = s.len + (n1.toNat + 1)) ∧
      (s.phase ≠ .absorb ∨ s.len + (n1.toNat + 1) > 2 ^ 61 - 1 → t.len = s.len)) ∧
    (Accepted .init s t → t.len = 0) ∧
    (s.resetPin = true → t.len = 0) ∧
    (s.len ≤ 2 ^ 61 - 1 → t.len ≤ 2 ^ 61 - 1 ∧ (8 * t.len < 2 ^ 64))

/-- R268, R270: while an error is recorded, no step but INIT and reset clears it or changes its cause. -/
def Obligations.ErrorStaysUntilInitOrReset : Prop :=
  ∀ s t : State, step s = .next t → s.err = true →
    (t.err = true ∧ t.cause = s.cause) ∨
    (s.resetPin = true ∧ t.err = false ∧ t.cause = .noError) ∨
    (Accepted .init s t ∧ t.err = false ∧ t.cause = .noError)

/-- R31, R265: `H` cannot be observed outside phase DONE: two states that differ in `H` alone answer every command alike and
have the same STATUS after it. -/
def Obligations.ChainingStateIsHiddenUntilDone : Prop :=
  ∀ (i : Instr) (s t : State) (h : Words8), s.phase ≠ .done → exec i s = .next t →
    ∃ t', exec i { s with chainH := h } = .next t' ∧ t'.resp = t.resp ∧ t'.status = t.status

/-! ### The invariant, and the whole function -/

/-- The invariant holds after reset. -/
def Obligations.ResetSatisfiesTheInvariant : Prop := State.reset.Inv

/-- Every step keeps the invariant, from every state that meets it: whichever agent has the turn, and reset. -/
def Obligations.StepKeepsTheInvariant : Prop :=
  ∀ s t : State, s.Inv → step s = .next t → t.Inv

/-- R47, R260, R280: no step stops, in any state; and from a state that meets the invariant no step reads an element that nothing has
written: two states that agree but for such elements step to two that agree but for such elements. Whatever value an unwritten
element holds (I5; log 4), HCP-256 does the same. -/
def Obligations.NoStepReadsAnUnwrittenElement : Prop :=
  (∀ s : State, ∃ t, step s = .next t) ∧
  (∀ s s' t : State, s.Inv → s.AgreesWhereWritten s' → step s = .next t →
    ∃ t', step s' = .next t' ∧ t.AgreesWhereWritten t')

/-- R47, I5, R300: what `H`, `buf`, `t`, `v` and `W` hold after reset is never seen: for every list of commands and every number of
steps, a machine that starts from reset, and one that starts from it with any other values of these elements, have returned the same words, show the same
STATUS and RESP, and have the same commands left. -/
def Obligations.ResetValuesAreNeverSeen : Prop :=
  ∀ (n : Nat) (cs : List Command) (h : Words8) (b : Block) (k : Fin 65) (v : Words8) (w : Words64),
    ∃ t t', stepN n { State.reset with port := cs } = .next t ∧
      stepN n { State.reset with port := cs, chainH := h, buf := b, t := k, v := v, w := w } = .next t' ∧
      t'.returned = t.returned ∧ t'.port = t.port ∧ t'.status = t.status ∧ t'.resp = t.resp

/-- R90: `MSG` expands a sequence of `k` bytes to `ceil(k/4)` ABSORBs that carry exactly those bytes, every one but the last with
four of them and the unused lanes 0; `ABSORBB`, `ABSORBW` and `HASH` are what the rule says. -/
def Obligations.MsgCarriesTheMessage : Prop :=
  (∀ m : List Byte, messageOf (msg m) = m ∧ (msg m).length = (m.length + 3) / 4 ∧
    (∀ (q : Nat) (p : BitVec 2 × Word), (msg m)[q]? = some p →
      p.1.toNat + 1 = min 4 (m.length - 4 * q) ∧
      ∀ k, k < 4 → p.2.extractLsb' (24 - 8 * k) 8 = if k ≤ p.1.toNat then m.getD (4 * q + k) 0 else 0)) ∧
  (∀ m : List Byte, (hashCommands m).map encode = hashProgram (msg m) rdhexAll) ∧
  (∀ b : Byte, encode (absorbB b) = ⟨0x00000002, b.zeroExtend 32 <<< 24⟩) ∧
  (∀ w : Word, encode (absorbW w) = ⟨0x00000032, w⟩)

/-- R232, R105, R184: from any state with BUSY = 0, for every way of splitting a message into ABSORBs and every interleaving of
CORE steps, INIT, the ABSORBs and FINAL followed by RDHEX 0..15 raise no error, and the 16 words spell the 64 characters of
`hash256_hex_string(m)`; RDDIG 0..7 in their place give the bytes of `digest(m)`. -/
def Obligations.HashCommandsComputeTheHash : Prop :=
  ∀ (s : State) (parts : List (BitVec 2 × Word)),
    s.Inv → s.busy = false → s.resetPin = false → (messageOf parts).length ≤ 2 ^ 61 - 1 →
    (s.port = hashProgram parts rdhexAll → ∃ n t words, stepN n s = .next t ∧
      t.port = [] ∧ t.busy = false ∧ t.err = false ∧ t.dvalid = true ∧
      t.returned = s.returned ++ List.replicate (parts.length + 2) 0 ++ words ∧ words.length = 16 ∧
      words.flatMap bytes32 = hash256HexString (messageOf parts)) ∧
    (s.port = hashProgram parts rddigAll → ∃ n t words, stepN n s = .next t ∧
      t.port = [] ∧ t.busy = false ∧ t.err = false ∧ t.dvalid = true ∧
      t.returned = s.returned ++ List.replicate (parts.length + 2) 0 ++ words ∧ words.length = 8 ∧
      words.flatMap bytes32 = digest (messageOf parts))
end

