-- ==== Sys2Proof/Laws/Decode.lean ====
section
/-!
SUPPORT. The decoder by the fields of CMD (spec/30_encoding.md R80): each row of R85 matches exactly where its fields have the
row's values.
-/

namespace Sys2Proof

/-- Two concatenations of the same widths are equal exactly where their parts are. -/
theorem append_eq_append_iff {m n : Nat} (a b : BitVec m) (c d : BitVec n) : a ++ c = b ++ d ↔ a = b ∧ c = d := by
  constructor
  · intro h
    constructor
    · have := congrArg (BitVec.extractLsb' n m) h
      simpa [BitVec.extractLsb'_append_eq_of_le] using this
    · have := congrArg (BitVec.extractLsb' 0 n) h
      simpa [BitVec.extractLsb'_append_eq_right] using this
  · rintro ⟨rfl, rfl⟩; rfl

/-- A CMD word of its five fields, the reserved ones included (R80). -/
def wordOfFields (hi : BitVec 20) (idx : BitVec 4) (lo n1 : BitVec 2) (op : BitVec 4) : Word :=
  (hi ++ idx ++ lo ++ n1 ++ op : BitVec 32)

theorem wordOfFields_eq_iff {hi hi' : BitVec 20} {idx idx' : BitVec 4} {lo lo' n1 n1' : BitVec 2} {op op' : BitVec 4} :
    wordOfFields hi idx lo n1 op = wordOfFields hi' idx' lo' n1' op' ↔
      hi = hi' ∧ idx = idx' ∧ lo = lo' ∧ n1 = n1' ∧ op = op' := by
  have h : (hi ++ idx ++ lo ++ n1 ++ op = hi' ++ idx' ++ lo' ++ n1' ++ op') ↔
      hi = hi' ∧ idx = idx' ∧ lo = lo' ∧ n1 = n1' ∧ op = op' := by
    simp only [append_eq_append_iff, and_assoc]
  exact h

theorem wordOfFields_and {hi hi' : BitVec 20} {idx idx' : BitVec 4} {lo lo' n1 n1' : BitVec 2} {op op' : BitVec 4} :
    wordOfFields hi idx lo n1 op &&& wordOfFields hi' idx' lo' n1' op' =
      wordOfFields (hi &&& hi') (idx &&& idx') (lo &&& lo') (n1 &&& n1') (op &&& op') := by
  have h : (hi ++ idx ++ lo ++ n1 ++ op) &&& (hi' ++ idx' ++ lo' ++ n1' ++ op') =
      (hi &&& hi') ++ (idx &&& idx') ++ (lo &&& lo') ++ (n1 &&& n1') ++ (op &&& op') := by
    simp only [BitVec.and_append]
  exact h

/-- Every CMD word is made of its fields. -/
theorem wordOfFields_of_word (c : Word) :
    wordOfFields (reservedHighField c) (idxField c) (reservedLowField c) (n1Field c) (opField c) = c := by
  have h : ∀ c : BitVec (20 + 4 + 2 + 2 + 4), c.extractLsb' 12 20 ++ c.extractLsb' 8 4 ++ c.extractLsb' 6 2 ++
      c.extractLsb' 4 2 ++ c.extractLsb' 0 4 = c := by
    intro c
    apply BitVec.eq_of_getLsbD_eq
    intro i hi
    simp only [BitVec.getLsbD_append, BitVec.getLsbD_extractLsb']
    split
    · rename_i h; simp [h]
    · split
      · rename_i h1 h2; simp [h2]; congr 1; omega
      · split
        · rename_i h1 h2 h3; simp [h3]; congr 1; omega
        · split
          · rename_i h1 h2 h3 h4; simp [h4]; congr 1; omega
          · rename_i h1 h2 h3 h4
            have h5 : i - 4 - 2 - 2 - 4 < 20 := by omega
            simp [h5]; congr 1; omega
  exact h c

/-! ### Rows (R85) -/

/-- Every mask of R85 covers `OP` whole, so a row matches only words of its own opcode. -/
theorem opField_of_matches {r : Row} (hr : r ∈ opcodeRows) {cmd : Word} (h : r.matchesWord cmd = true) :
    opField cmd = opField r.pattern := by
  have h1 : cmd &&& r.mask = r.pattern := by simpa [Row.matchesWord] using h
  have hm : opField r.mask = BitVec.allOnes 4 := by
    have : ∀ r ∈ opcodeRows, opField r.mask = BitVec.allOnes 4 := by decide
    exact this r hr
  have h2 : opField (cmd &&& r.mask) = opField cmd &&& opField r.mask := by
    simp [opField, BitVec.extractLsb'_and]
  rw [← h1, h2, hm, BitVec.and_allOnes]

/-- R85: no two rows match one word. -/
theorem row_unique {r₁ r₂ : Row} (h₁ : r₁ ∈ opcodeRows) (h₂ : r₂ ∈ opcodeRows) {cmd : Word}
    (m₁ : r₁.matchesWord cmd = true) (m₂ : r₂.matchesWord cmd = true) : r₁ = r₂ := by
  have h : opField r₁.pattern = opField r₂.pattern := by
    rw [← opField_of_matches h₁ m₁, opField_of_matches h₂ m₂]
  have key : ∀ r₁ ∈ opcodeRows, ∀ r₂ ∈ opcodeRows, opField r₁.pattern = opField r₂.pattern → r₁ = r₂ := by decide
  exact key r₁ h₁ r₂ h₂ h

/-- A word that a row matches decodes to that row's command. -/
theorem decode_of_matches {r : Row} (hr : r ∈ opcodeRows) {c : Command} (h : r.matchesWord c.cmd = true) :
    decode c = .ok (operandsOf r.op c) := by
  unfold decode
  cases hf : opcodeRows.find? (fun r => r.matchesWord c.cmd) with
  | none =>
    have := List.find?_eq_none.1 hf r hr
    simp [h] at this
  | some r' =>
    have hm : r'.matchesWord c.cmd = true := by simpa using List.find?_some hf
    rw [row_unique (List.mem_of_find?_eq_some hf) hr hm h]

/-- What decodes was matched by a row. -/
theorem decode_eq_ok {c : Command} {i : Instr} (h : decode c = .ok i) :
    ∃ r ∈ opcodeRows, r.matchesWord c.cmd = true ∧ i = operandsOf r.op c := by
  unfold decode at h
  cases hf : opcodeRows.find? (fun r => r.matchesWord c.cmd) with
  | none => simp [hf] at h
  | some r =>
    simp only [hf, Except.ok.injEq] at h
    exact ⟨r, List.mem_of_find?_eq_some hf, by simpa using List.find?_some hf, h.symm⟩

/-- What does not decode no row matches, and the reason is a function of CMD alone. -/
theorem decode_eq_error {c : Command} {e : IllegalWord} (h : decode c = .error e) :
    (∀ r ∈ opcodeRows, r.matchesWord c.cmd = false) ∧ e = illegalReason c.cmd := by
  unfold decode at h
  cases hf : opcodeRows.find? (fun r => r.matchesWord c.cmd) with
  | some r => simp [hf] at h
  | none =>
    simp only [hf, Except.error.injEq] at h
    exact ⟨fun r hr => by simpa using List.find?_eq_none.1 hf r hr, h.symm⟩

theorem decode_error_of_no_match {c : Command} (h : ∀ r ∈ opcodeRows, r.matchesWord c.cmd = false) :
    decode c = .error (illegalReason c.cmd) := by
  unfold decode
  rw [List.find?_eq_none.2 (by intro r hr; simp [h r hr])]

/-- A row given by its fields matches where each masked field has the row's value. -/
theorem matches_fields (o : Opcode) (ph mh hi : BitVec 20) (pi mi idx : BitVec 4) (pl ml lo pn mn n1 : BitVec 2)
    (po mo op : BitVec 4) :
    (Row.mk o (wordOfFields ph pi pl pn po) (wordOfFields mh mi ml mn mo)).matchesWord (wordOfFields hi idx lo n1 op) = true
      ↔ hi &&& mh = ph ∧ idx &&& mi = pi ∧ lo &&& ml = pl ∧ n1 &&& mn = pn ∧ op &&& mo = po := by
  simp only [Row.matchesWord, beq_iff_eq, wordOfFields_and, wordOfFields_eq_iff]

/-! ### The encoder's words (R89) -/

theorem cmdWord_eq (op : BitVec 4) (n1 : BitVec 2) (idx : BitVec 4) : cmdWord op n1 idx = wordOfFields 0 idx 0 n1 op := rfl

theorem opField_wordOfFields (hi : BitVec 20) (idx : BitVec 4) (lo n1 : BitVec 2) (op : BitVec 4) :
    opField (wordOfFields hi idx lo n1 op) = op :=
  (wordOfFields_eq_iff.1 (wordOfFields_of_word (wordOfFields hi idx lo n1 op))).2.2.2.2

theorem n1Field_wordOfFields (hi : BitVec 20) (idx : BitVec 4) (lo n1 : BitVec 2) (op : BitVec 4) :
    n1Field (wordOfFields hi idx lo n1 op) = n1 :=
  (wordOfFields_eq_iff.1 (wordOfFields_of_word (wordOfFields hi idx lo n1 op))).2.2.2.1

theorem idxField_wordOfFields (hi : BitVec 20) (idx : BitVec 4) (lo n1 : BitVec 2) (op : BitVec 4) :
    idxField (wordOfFields hi idx lo n1 op) = idx :=
  (wordOfFields_eq_iff.1 (wordOfFields_of_word (wordOfFields hi idx lo n1 op))).2.1

theorem reservedHighField_wordOfFields (hi : BitVec 20) (idx : BitVec 4) (lo n1 : BitVec 2) (op : BitVec 4) :
    reservedHighField (wordOfFields hi idx lo n1 op) = hi :=
  (wordOfFields_eq_iff.1 (wordOfFields_of_word (wordOfFields hi idx lo n1 op))).1

theorem reservedLowField_wordOfFields (hi : BitVec 20) (idx : BitVec 4) (lo n1 : BitVec 2) (op : BitVec 4) :
    reservedLowField (wordOfFields hi idx lo n1 op) = lo :=
  (wordOfFields_eq_iff.1 (wordOfFields_of_word (wordOfFields hi idx lo n1 op))).2.2.1

end Sys2Proof
end

