-- ==== Sys2Proof/Laws/Digest.lean ====
section
/-!
SUPPORT. The byte-order primitives, the digest finalizer and the hex encoder (spec/00_scope.md R13, spec/44_digest_hex.md).
-/

namespace Sys2Proof.Machine

/-! ### `BYTES32` and `BE32` are inverses (R13) -/

@[simp] theorem bytes32_length (w : Word) : (bytes32 w).length = 4 := rfl

theorem byteOf_be32 (b0 b1 b2 b3 : Byte) :
    byteOf (be32 b0 b1 b2 b3) 0 = b0 ∧ byteOf (be32 b0 b1 b2 b3) 1 = b1 ∧
      byteOf (be32 b0 b1 b2 b3) 2 = b2 ∧ byteOf (be32 b0 b1 b2 b3) 3 = b3 := by
  have h : ∀ x : BitVec (8 + 8 + 8 + 8), x = b0 ++ b1 ++ b2 ++ b3 →
      x.extractLsb' 24 8 = b0 ∧ x.extractLsb' 16 8 = b1 ∧ x.extractLsb' 8 8 = b2 ∧ x.extractLsb' 0 8 = b3 := by
    rintro x rfl
    refine ⟨?_, ?_, ?_, ?_⟩ <;> apply BitVec.eq_of_getLsbD_eq <;> intro i hi <;>
      simp only [BitVec.getLsbD_extractLsb', BitVec.getLsbD_append, hi, decide_true, Bool.true_and]
    · rw [if_neg (by omega), if_neg (by omega), if_neg (by omega)]; congr 1; omega
    · rw [if_neg (by omega), if_neg (by omega), if_pos (by omega)]; congr 1; omega
    · rw [if_neg (by omega), if_pos (by omega)]; congr 1; omega
    · rw [if_pos (by omega)]; congr 1; omega
  exact h _ rfl

theorem bytes32_be32 (b0 b1 b2 b3 : Byte) : bytes32 (be32 b0 b1 b2 b3) = [b0, b1, b2, b3] := by
  obtain ⟨h0, h1, h2, h3⟩ := byteOf_be32 b0 b1 b2 b3
  simp [bytes32, h0, h1, h2, h3]

theorem bytes32_getElem? (w : Word) {k : Nat} (h : k < 4) : (bytes32 w)[k]? = some (byteOf w k) := by
  rcases k with _ | _ | _ | _ | k <;> first | rfl | omega

/-! ### Concatenations of pieces of one length -/

theorem flatMap_length {α β : Type} {f : α → List β} {n : Nat} (hf : ∀ a, (f a).length = n) (l : List α) :
    (l.flatMap f).length = n * l.length := by
  induction l with
  | nil => simp
  | cons a l ih => simp [hf, ih]; ring

theorem flatMap_getElem? {α β : Type} {f : α → List β} {n : Nat} (hf : ∀ a, (f a).length = n) {l : List α} {i k : Nat}
    {a : α} (hi : l[i]? = some a) (hk : k < n) : (l.flatMap f)[n * i + k]? = (f a)[k]? := by
  induction l generalizing i with
  | nil => simp at hi
  | cons b l ih =>
    cases i with
    | zero =>
      obtain rfl : b = a := by simpa using hi
      rw [List.flatMap_cons, List.getElem?_append_left (by rw [hf]; omega)]
      simp
    | succ i =>
      rw [List.flatMap_cons, List.getElem?_append_right (by rw [hf, Nat.mul_succ]; omega), hf,
        show n * (i + 1) + k - n = n * i + k by rw [Nat.mul_succ]; omega]
      exact ih (by simpa using hi)

/-! ### The digest (R63, R180) -/

theorem digestBytes_length (h : Words8) : (digestBytes h).length = 32 := by
  rw [digestBytes, flatMap_length bytes32_length]; simp

theorem digestBytes_getElem? (h : Words8) {i k : Nat} (hi : i < 8) (hk : k < 4) :
    (digestBytes h)[4 * i + k]? = some (byteOf h[i] k) := by
  rw [digestBytes, flatMap_getElem? bytes32_length (i := i) (a := h[i]) (by simp [hi]) hk, bytes32_getElem? _ hk]

/-! ### The hex string (R182, R183, R185) -/

@[simp] theorem hexPair_length (b : Byte) : (hexPair b).length = 2 := rfl

theorem toHex_length (bs : List Byte) : (toHex bs).length = 2 * bs.length := by
  rw [toHex, flatMap_length hexPair_length]

theorem toHex_getElem? {bs : List Byte} {k : Nat} {b : Byte} (h : bs[k]? = some b) :
    (toHex bs)[2 * k]? = some (hexchar (b.extractLsb' 4 4)) ∧
      (toHex bs)[2 * k + 1]? = some (hexchar (b.extractLsb' 0 4)) := by
  constructor
  · have := flatMap_getElem? hexPair_length h (k := 0) (by omega)
    simpa [toHex, hexPair] using this
  · have := flatMap_getElem? hexPair_length h (k := 1) (by omega)
    simpa [toHex, hexPair] using this

/-- Every character is a lowercase hex digit (R182). -/
theorem hexchar_range (n : BitVec 4) :
    (0x30 ≤ (hexchar n).toNat ∧ (hexchar n).toNat ≤ 0x39) ∨ (0x61 ≤ (hexchar n).toNat ∧ (hexchar n).toNat ≤ 0x66) := by
  revert n; decide

theorem mem_toHex {bs : List Byte} {x : Byte} (h : x ∈ toHex bs) : ∃ n : BitVec 4, x = hexchar n := by
  obtain ⟨b, -, hx⟩ := List.mem_flatMap.1 h
  rcases List.mem_cons.1 hx with rfl | hx
  · exact ⟨_, rfl⟩
  · rcases List.mem_cons.1 hx with rfl | hx
    · exact ⟨_, rfl⟩
    · simp at hx

theorem toHex_digestBytes_length (h : Words8) : (toHex (digestBytes h)).length = 64 := by
  rw [toHex_length, digestBytes_length]

/-- The four characters of one RDHEX word, as bytes (R65, R225). -/
theorem bytes32_hexGroup {chars : List Byte} {j : Nat} (h : 4 * j + 4 ≤ chars.length) :
    bytes32 (hexGroup chars j) = (chars.drop (4 * j)).take 4 := by
  rw [hexGroup, bytes32_be32]
  apply List.ext_getElem?
  intro i
  by_cases hi : i < 4
  · rw [List.getElem?_take_of_lt hi, List.getElem?_drop]
    rcases i with _ | _ | _ | _ | i
    · simp [List.getD_eq_getElem?_getD, List.getElem?_eq_getElem (show 4 * j < chars.length by omega)]
    · simp [List.getD_eq_getElem?_getD, List.getElem?_eq_getElem (show 4 * j + 1 < chars.length by omega)]
    · simp [List.getD_eq_getElem?_getD, List.getElem?_eq_getElem (show 4 * j + 2 < chars.length by omega)]
    · simp [List.getD_eq_getElem?_getD, List.getElem?_eq_getElem (show 4 * j + 3 < chars.length by omega)]
    · omega
  · rw [List.getElem?_eq_none (by simp; omega), List.getElem?_eq_none (by simp; omega)]

end Sys2Proof.Machine
end

