-- ==== Sys2Proof/Laws/Padder.lean ====
section
/-!
SUPPORT. The padder (spec/41_padder.md): the bytes and the number of the blocks.
-/

namespace Sys2Proof.Machine

/-! ### Blocks of a byte sequence (R106) -/

@[simp] theorem blockAt_getElem (p : List Byte) (q i : Nat) (h : i < 64) :
    (blockAt p q)[i] = p.getD (64 * q + i) 0 := by
  simp [blockAt]

/-- A block that lies in the first part of a sequence. -/
theorem blockAt_append_left {p r : List Byte} {q : Nat} (h : 64 * (q + 1) ≤ p.length) :
    blockAt (p ++ r) q = blockAt p q := by
  apply Vector.ext
  intro i hi
  rw [blockAt_getElem _ _ _ hi, blockAt_getElem _ _ _ hi, List.getD_append _ _ _ _ (by omega)]

/-- Dropping whole blocks shifts the index. -/
theorem blockAt_drop (p : List Byte) (k q : Nat) : blockAt (p.drop (64 * k)) q = blockAt p (k + q) := by
  apply Vector.ext
  intro i hi
  rw [blockAt_getElem _ _ _ hi, blockAt_getElem _ _ _ hi, List.getD_eq_getElem?_getD, List.getD_eq_getElem?_getD,
    List.getElem?_drop]
  congr 2; ring

/-- The bytes of a block that lies wholly in the sequence. -/
theorem blockAt_toList {p : List Byte} {q : Nat} (h : 64 * (q + 1) ≤ p.length) :
    (blockAt p q).toList = (p.drop (64 * q)).take 64 := by
  apply List.ext_getElem
  · simp; omega
  · intro i h1 h2
    have h1' : i < 64 := by simpa using h1
    have h3 : 64 * q + i < p.length := by omega
    rw [Vector.getElem_toList, blockAt_getElem _ _ _ h1']
    simp [List.getD_eq_getElem?_getD, List.getElem?_eq_getElem h3]

theorem blocks_length (p : List Byte) : (blocks p).length = p.length / 64 := by simp [blocks]

/-! ### Lengths (R100, R101) -/

theorem bytes64_length (x : DWord) : (bytes64 x).length = 8 := rfl

theorem padding_length (n : Nat) (l : DWord) : (padding n l).length = 1 + zeroCount n + 8 := by
  simp [padding, bytes64_length]; omega

theorem zeroCount_le (n : Nat) : zeroCount n ≤ 63 := by unfold zeroCount; omega

/-- The zeros bring the length to 56 modulo 64 (R100). -/
theorem zeroCount_spec (n : Nat) : (n + 1 + zeroCount n) % 64 = 56 := by unfold zeroCount; omega

theorem zeroCount_mod (n : Nat) : zeroCount (n % 64) = zeroCount n := by unfold zeroCount; omega

theorem padding_mod (n : Nat) (l : DWord) : padding (n % 64) l = padding n l := by
  unfold padding; rw [zeroCount_mod]

/-- R101: the padded length. -/
theorem pad_length (m : List Byte) : (pad m).length = 64 * nblocks m.length := by
  have h := zeroCount_spec m.length
  have h' := zeroCount_le m.length
  simp only [pad, List.length_append, padding_length, nblocks]
  unfold zeroCount at *; omega

theorem blocks_pad_length (m : List Byte) : (blocks (pad m)).length = nblocks m.length := by
  rw [blocks_length, pad_length]; omega

/-! ### The padded tail (R104) -/

theorem padTail_of_le {p : List Byte} (l : DWord) (h : p.length ≤ 55) :
    padTail p l = [blockAt (p ++ padding p.length l) 0] := by simp [padTail, h]

theorem padTail_of_gt {p : List Byte} (l : DWord) (h : 56 ≤ p.length) :
    padTail p l = [blockAt (p ++ padding p.length l) 0, blockAt (p ++ padding p.length l) 1] := by
  unfold padTail; rw [if_neg (by omega)]

theorem padTail_ne_nil (p : List Byte) (l : DWord) : padTail p l ≠ [] := by
  unfold padTail; split <;> simp

theorem padTail_length_le (p : List Byte) (l : DWord) : (padTail p l).length ≤ 2 := by
  unfold padTail; split <;> simp

/-- The tail is the blocks of the padded partial block. -/
theorem padTail_eq_blocks {p : List Byte} (l : DWord) (h : p.length < 64) :
    padTail p l = blocks (p ++ padding p.length l) := by
  have hz := zeroCount_spec p.length
  have hz' := zeroCount_le p.length
  have hlen : (p ++ padding p.length l).length = p.length + (1 + zeroCount p.length + 8) := by
    simp [padding_length]
  by_cases h55 : p.length ≤ 55
  · have : (p ++ padding p.length l).length / 64 = 1 := by rw [hlen]; omega
    rw [padTail_of_le l h55, blocks, this]; simp [List.range_succ]
  · have : (p ++ padding p.length l).length / 64 = 2 := by rw [hlen]; unfold zeroCount at *; omega
    rw [padTail_of_gt l (by omega), blocks, this]; simp [List.range_succ]

/-- Blocks of a sequence whose first part is whole blocks. -/
theorem blocks_append {p r : List Byte} {k : Nat} (h : p.length = 64 * k) : blocks (p ++ r) = blocks p ++ blocks r := by
  unfold blocks
  have h1 : (p ++ r).length / 64 = k + r.length / 64 := by
    rw [List.length_append, h]; omega
  have h2 : p.length / 64 = k := by omega
  have hl : (List.range k).map (blockAt (p ++ r)) = (List.range k).map (blockAt p) := by
    apply List.map_congr_left
    intro q hq
    exact blockAt_append_left (by have := List.mem_range.1 hq; omega)
  have hr : ∀ q, blockAt (p ++ r) (k + q) = blockAt r q := by
    intro q
    rw [← blockAt_drop, List.drop_append_of_le_length (by omega), List.drop_of_length_le (by omega), List.nil_append]
  rw [h1, h2, List.range_add, List.map_append, hl, List.map_map]
  simp only [Function.comp_def, hr]

end Sys2Proof.Machine
end

