-- ==== Sys2Proof/Laws/State.lean ====
section
/-!
SUPPORT. One lemma for each field and each named update of State: what the update leaves in the field. No later proof unfolds
an update.
-/

namespace Sys2Proof.Machine

/-! ### `State.respond`: only `resp` (R44) -/

@[simp] theorem State.respond_chainH (s : State) (x : Word) : (s.respond x).chainH = s.chainH := rfl
@[simp] theorem State.respond_buf (s : State) (x : Word) : (s.respond x).buf = s.buf := rfl
@[simp] theorem State.respond_fill (s : State) (x : Word) : (s.respond x).fill = s.fill := rfl
@[simp] theorem State.respond_len (s : State) (x : Word) : (s.respond x).len = s.len := rfl
@[simp] theorem State.respond_phase (s : State) (x : Word) : (s.respond x).phase = s.phase := rfl
@[simp] theorem State.respond_pend (s : State) (x : Word) : (s.respond x).pend = s.pend := rfl
@[simp] theorem State.respond_run (s : State) (x : Word) : (s.respond x).run = s.run := rfl
@[simp] theorem State.respond_t (s : State) (x : Word) : (s.respond x).t = s.t := rfl
@[simp] theorem State.respond_v (s : State) (x : Word) : (s.respond x).v = s.v := rfl
@[simp] theorem State.respond_w (s : State) (x : Word) : (s.respond x).w = s.w := rfl
@[simp] theorem State.respond_err (s : State) (x : Word) : (s.respond x).err = s.err := rfl
@[simp] theorem State.respond_cause (s : State) (x : Word) : (s.respond x).cause = s.cause := rfl
@[simp] theorem State.respond_resp (s : State) (x : Word) : (s.respond x).resp = x := rfl
@[simp] theorem State.respond_port (s : State) (x : Word) : (s.respond x).port = s.port := rfl
@[simp] theorem State.respond_returned (s : State) (x : Word) : (s.respond x).returned = s.returned := rfl
@[simp] theorem State.respond_resetPin (s : State) (x : Word) : (s.respond x).resetPin = s.resetPin := rfl
@[simp] theorem State.respond_coreSteps (s : State) (x : Word) : (s.respond x).coreSteps = s.coreSteps := rfl
@[simp] theorem State.respond_polls (s : State) (x : Word) : (s.respond x).polls = s.polls := rfl

/-! ### `State.raise`: only `err`, `cause` and `resp` (R263) -/

@[simp] theorem State.raise_chainH (s : State) (c : Cause) : (s.raise c).chainH = s.chainH := by unfold State.raise; split <;> rfl
@[simp] theorem State.raise_buf (s : State) (c : Cause) : (s.raise c).buf = s.buf := by unfold State.raise; split <;> rfl
@[simp] theorem State.raise_fill (s : State) (c : Cause) : (s.raise c).fill = s.fill := by unfold State.raise; split <;> rfl
@[simp] theorem State.raise_len (s : State) (c : Cause) : (s.raise c).len = s.len := by unfold State.raise; split <;> rfl
@[simp] theorem State.raise_phase (s : State) (c : Cause) : (s.raise c).phase = s.phase := by unfold State.raise; split <;> rfl
@[simp] theorem State.raise_pend (s : State) (c : Cause) : (s.raise c).pend = s.pend := by unfold State.raise; split <;> rfl
@[simp] theorem State.raise_run (s : State) (c : Cause) : (s.raise c).run = s.run := by unfold State.raise; split <;> rfl
@[simp] theorem State.raise_t (s : State) (c : Cause) : (s.raise c).t = s.t := by unfold State.raise; split <;> rfl
@[simp] theorem State.raise_v (s : State) (c : Cause) : (s.raise c).v = s.v := by unfold State.raise; split <;> rfl
@[simp] theorem State.raise_w (s : State) (c : Cause) : (s.raise c).w = s.w := by unfold State.raise; split <;> rfl
@[simp] theorem State.raise_err (s : State) (c : Cause) : (s.raise c).err = true := by unfold State.raise; split <;> simp_all
@[simp] theorem State.raise_cause (s : State) (c : Cause) : (s.raise c).cause = if s.err then s.cause else c := by unfold State.raise; split <;> simp_all
@[simp] theorem State.raise_resp (s : State) (c : Cause) : (s.raise c).resp = 0 := by unfold State.raise; split <;> simp_all
@[simp] theorem State.raise_port (s : State) (c : Cause) : (s.raise c).port = s.port := by unfold State.raise; split <;> rfl
@[simp] theorem State.raise_returned (s : State) (c : Cause) : (s.raise c).returned = s.returned := by unfold State.raise; split <;> rfl
@[simp] theorem State.raise_resetPin (s : State) (c : Cause) : (s.raise c).resetPin = s.resetPin := by unfold State.raise; split <;> rfl
@[simp] theorem State.raise_coreSteps (s : State) (c : Cause) : (s.raise c).coreSteps = s.coreSteps := by unfold State.raise; split <;> rfl
@[simp] theorem State.raise_polls (s : State) (c : Cause) : (s.raise c).polls = s.polls := by unfold State.raise; split <;> rfl

/-! ### `State.clearError`: only `err` and `cause` (R270) -/

@[simp] theorem State.clearError_chainH (s : State) : (s.clearError).chainH = s.chainH := rfl
@[simp] theorem State.clearError_buf (s : State) : (s.clearError).buf = s.buf := rfl
@[simp] theorem State.clearError_fill (s : State) : (s.clearError).fill = s.fill := rfl
@[simp] theorem State.clearError_len (s : State) : (s.clearError).len = s.len := rfl
@[simp] theorem State.clearError_phase (s : State) : (s.clearError).phase = s.phase := rfl
@[simp] theorem State.clearError_pend (s : State) : (s.clearError).pend = s.pend := rfl
@[simp] theorem State.clearError_run (s : State) : (s.clearError).run = s.run := rfl
@[simp] theorem State.clearError_t (s : State) : (s.clearError).t = s.t := rfl
@[simp] theorem State.clearError_v (s : State) : (s.clearError).v = s.v := rfl
@[simp] theorem State.clearError_w (s : State) : (s.clearError).w = s.w := rfl
@[simp] theorem State.clearError_err (s : State) : (s.clearError).err = false := rfl
@[simp] theorem State.clearError_cause (s : State) : (s.clearError).cause = .noError := rfl
@[simp] theorem State.clearError_resp (s : State) : (s.clearError).resp = s.resp := rfl
@[simp] theorem State.clearError_port (s : State) : (s.clearError).port = s.port := rfl
@[simp] theorem State.clearError_returned (s : State) : (s.clearError).returned = s.returned := rfl
@[simp] theorem State.clearError_resetPin (s : State) : (s.clearError).resetPin = s.resetPin := rfl
@[simp] theorem State.clearError_coreSteps (s : State) : (s.clearError).coreSteps = s.coreSteps := rfl
@[simp] theorem State.clearError_polls (s : State) : (s.clearError).polls = s.polls := rfl

/-! ### `State.putByte`: only `buf` and `len` (R214) -/

@[simp] theorem State.putByte_chainH (s : State) (b : Byte) : (s.putByte b).chainH = s.chainH := rfl
@[simp] theorem State.putByte_buf (s : State) (b : Byte) : (s.putByte b).buf = s.buf.set s.fill.val b := rfl
@[simp] theorem State.putByte_fill (s : State) (b : Byte) : (s.putByte b).fill = s.fill := rfl
@[simp] theorem State.putByte_len (s : State) (b : Byte) : (s.putByte b).len = s.len + 1 := rfl
@[simp] theorem State.putByte_phase (s : State) (b : Byte) : (s.putByte b).phase = s.phase := rfl
@[simp] theorem State.putByte_pend (s : State) (b : Byte) : (s.putByte b).pend = s.pend := rfl
@[simp] theorem State.putByte_run (s : State) (b : Byte) : (s.putByte b).run = s.run := rfl
@[simp] theorem State.putByte_t (s : State) (b : Byte) : (s.putByte b).t = s.t := rfl
@[simp] theorem State.putByte_v (s : State) (b : Byte) : (s.putByte b).v = s.v := rfl
@[simp] theorem State.putByte_w (s : State) (b : Byte) : (s.putByte b).w = s.w := rfl
@[simp] theorem State.putByte_err (s : State) (b : Byte) : (s.putByte b).err = s.err := rfl
@[simp] theorem State.putByte_cause (s : State) (b : Byte) : (s.putByte b).cause = s.cause := rfl
@[simp] theorem State.putByte_resp (s : State) (b : Byte) : (s.putByte b).resp = s.resp := rfl
@[simp] theorem State.putByte_port (s : State) (b : Byte) : (s.putByte b).port = s.port := rfl
@[simp] theorem State.putByte_returned (s : State) (b : Byte) : (s.putByte b).returned = s.returned := rfl
@[simp] theorem State.putByte_resetPin (s : State) (b : Byte) : (s.putByte b).resetPin = s.resetPin := rfl
@[simp] theorem State.putByte_coreSteps (s : State) (b : Byte) : (s.putByte b).coreSteps = s.coreSteps := rfl
@[simp] theorem State.putByte_polls (s : State) (b : Byte) : (s.putByte b).polls = s.polls := rfl

/-! ### `State.takeCommand`: only the port, and HOST's turn counted -/

@[simp] theorem State.takeCommand_chainH (s : State) : (s.takeCommand).chainH = s.chainH := rfl
@[simp] theorem State.takeCommand_buf (s : State) : (s.takeCommand).buf = s.buf := rfl
@[simp] theorem State.takeCommand_fill (s : State) : (s.takeCommand).fill = s.fill := rfl
@[simp] theorem State.takeCommand_len (s : State) : (s.takeCommand).len = s.len := rfl
@[simp] theorem State.takeCommand_phase (s : State) : (s.takeCommand).phase = s.phase := rfl
@[simp] theorem State.takeCommand_pend (s : State) : (s.takeCommand).pend = s.pend := rfl
@[simp] theorem State.takeCommand_run (s : State) : (s.takeCommand).run = s.run := rfl
@[simp] theorem State.takeCommand_t (s : State) : (s.takeCommand).t = s.t := rfl
@[simp] theorem State.takeCommand_v (s : State) : (s.takeCommand).v = s.v := rfl
@[simp] theorem State.takeCommand_w (s : State) : (s.takeCommand).w = s.w := rfl
@[simp] theorem State.takeCommand_err (s : State) : (s.takeCommand).err = s.err := rfl
@[simp] theorem State.takeCommand_cause (s : State) : (s.takeCommand).cause = s.cause := rfl
@[simp] theorem State.takeCommand_resp (s : State) : (s.takeCommand).resp = s.resp := rfl
@[simp] theorem State.takeCommand_port (s : State) : (s.takeCommand).port = s.port.tail := rfl
@[simp] theorem State.takeCommand_returned (s : State) : (s.takeCommand).returned = s.returned := rfl
@[simp] theorem State.takeCommand_resetPin (s : State) : (s.takeCommand).resetPin = s.resetPin := rfl
@[simp] theorem State.takeCommand_coreSteps (s : State) : (s.takeCommand).coreSteps = s.coreSteps := rfl
@[simp] theorem State.takeCommand_polls (s : State) : (s.takeCommand).polls = if s.coreEnabled then s.polls + 1 else s.polls := rfl

/-! ### `State.returnResp`: only what HOST received -/

@[simp] theorem State.returnResp_chainH (s : State) : (s.returnResp).chainH = s.chainH := rfl
@[simp] theorem State.returnResp_buf (s : State) : (s.returnResp).buf = s.buf := rfl
@[simp] theorem State.returnResp_fill (s : State) : (s.returnResp).fill = s.fill := rfl
@[simp] theorem State.returnResp_len (s : State) : (s.returnResp).len = s.len := rfl
@[simp] theorem State.returnResp_phase (s : State) : (s.returnResp).phase = s.phase := rfl
@[simp] theorem State.returnResp_pend (s : State) : (s.returnResp).pend = s.pend := rfl
@[simp] theorem State.returnResp_run (s : State) : (s.returnResp).run = s.run := rfl
@[simp] theorem State.returnResp_t (s : State) : (s.returnResp).t = s.t := rfl
@[simp] theorem State.returnResp_v (s : State) : (s.returnResp).v = s.v := rfl
@[simp] theorem State.returnResp_w (s : State) : (s.returnResp).w = s.w := rfl
@[simp] theorem State.returnResp_err (s : State) : (s.returnResp).err = s.err := rfl
@[simp] theorem State.returnResp_cause (s : State) : (s.returnResp).cause = s.cause := rfl
@[simp] theorem State.returnResp_resp (s : State) : (s.returnResp).resp = s.resp := rfl
@[simp] theorem State.returnResp_port (s : State) : (s.returnResp).port = s.port := rfl
@[simp] theorem State.returnResp_returned (s : State) : (s.returnResp).returned = s.returned ++ [s.resp] := rfl
@[simp] theorem State.returnResp_resetPin (s : State) : (s.returnResp).resetPin = s.resetPin := rfl
@[simp] theorem State.returnResp_coreSteps (s : State) : (s.returnResp).coreSteps = s.coreSteps := rfl
@[simp] theorem State.returnResp_polls (s : State) : (s.returnResp).polls = s.polls := rfl

/-! ### `State.present`: the port, and nothing that would hold it -/

@[simp] theorem State.present_chainH (s : State) (c : Command) : (s.present c).chainH = s.chainH := rfl
@[simp] theorem State.present_buf (s : State) (c : Command) : (s.present c).buf = s.buf := rfl
@[simp] theorem State.present_fill (s : State) (c : Command) : (s.present c).fill = s.fill := rfl
@[simp] theorem State.present_len (s : State) (c : Command) : (s.present c).len = s.len := rfl
@[simp] theorem State.present_phase (s : State) (c : Command) : (s.present c).phase = s.phase := rfl
@[simp] theorem State.present_pend (s : State) (c : Command) : (s.present c).pend = [] := rfl
@[simp] theorem State.present_run (s : State) (c : Command) : (s.present c).run = false := rfl
@[simp] theorem State.present_t (s : State) (c : Command) : (s.present c).t = s.t := rfl
@[simp] theorem State.present_v (s : State) (c : Command) : (s.present c).v = s.v := rfl
@[simp] theorem State.present_w (s : State) (c : Command) : (s.present c).w = s.w := rfl
@[simp] theorem State.present_err (s : State) (c : Command) : (s.present c).err = s.err := rfl
@[simp] theorem State.present_cause (s : State) (c : Command) : (s.present c).cause = s.cause := rfl
@[simp] theorem State.present_resp (s : State) (c : Command) : (s.present c).resp = s.resp := rfl
@[simp] theorem State.present_port (s : State) (c : Command) : (s.present c).port = c :: s.port := rfl
@[simp] theorem State.present_returned (s : State) (c : Command) : (s.present c).returned = s.returned := rfl
@[simp] theorem State.present_resetPin (s : State) (c : Command) : (s.present c).resetPin = false := rfl
@[simp] theorem State.present_coreSteps (s : State) (c : Command) : (s.present c).coreSteps = s.coreSteps := rfl
@[simp] theorem State.present_polls (s : State) (c : Command) : (s.present c).polls = s.polls := rfl

/-! ### `State.applyReset`: every element of R30 to its reset value (R300) -/

@[simp] theorem State.applyReset_chainH (s : State) : (s.applyReset).chainH = State.reset.chainH := rfl
@[simp] theorem State.applyReset_buf (s : State) : (s.applyReset).buf = State.reset.buf := rfl
@[simp] theorem State.applyReset_fill (s : State) : (s.applyReset).fill = State.reset.fill := rfl
@[simp] theorem State.applyReset_len (s : State) : (s.applyReset).len = State.reset.len := rfl
@[simp] theorem State.applyReset_phase (s : State) : (s.applyReset).phase = State.reset.phase := rfl
@[simp] theorem State.applyReset_pend (s : State) : (s.applyReset).pend = State.reset.pend := rfl
@[simp] theorem State.applyReset_run (s : State) : (s.applyReset).run = State.reset.run := rfl
@[simp] theorem State.applyReset_t (s : State) : (s.applyReset).t = State.reset.t := rfl
@[simp] theorem State.applyReset_v (s : State) : (s.applyReset).v = State.reset.v := rfl
@[simp] theorem State.applyReset_w (s : State) : (s.applyReset).w = State.reset.w := rfl
@[simp] theorem State.applyReset_err (s : State) : (s.applyReset).err = State.reset.err := rfl
@[simp] theorem State.applyReset_cause (s : State) : (s.applyReset).cause = State.reset.cause := rfl
@[simp] theorem State.applyReset_resp (s : State) : (s.applyReset).resp = State.reset.resp := rfl
@[simp] theorem State.applyReset_port (s : State) : (s.applyReset).port = if s.held then s.port.tail else s.port := rfl
@[simp] theorem State.applyReset_returned (s : State) : (s.applyReset).returned = s.returned := rfl
@[simp] theorem State.applyReset_resetPin (s : State) : (s.applyReset).resetPin = State.reset.resetPin := rfl
@[simp] theorem State.applyReset_coreSteps (s : State) : (s.applyReset).coreSteps = s.coreSteps := rfl
@[simp] theorem State.applyReset_polls (s : State) : (s.applyReset).polls = s.polls := rfl

/-! ### `State.reset` (R300) -/

@[simp] theorem State.reset_chainH : State.reset.chainH = Vector.ofFn Config.resetH := rfl
@[simp] theorem State.reset_buf : State.reset.buf = Vector.ofFn Config.resetBuf := rfl
@[simp] theorem State.reset_fill : State.reset.fill = 0 := rfl
@[simp] theorem State.reset_len : State.reset.len = 0 := rfl
@[simp] theorem State.reset_phase : State.reset.phase = .idle := rfl
@[simp] theorem State.reset_pend : State.reset.pend = [] := rfl
@[simp] theorem State.reset_run : State.reset.run = false := rfl
@[simp] theorem State.reset_t : State.reset.t = Config.resetT := rfl
@[simp] theorem State.reset_v : State.reset.v = Vector.ofFn Config.resetV := rfl
@[simp] theorem State.reset_w : State.reset.w = Vector.ofFn Config.resetW := rfl
@[simp] theorem State.reset_err : State.reset.err = false := rfl
@[simp] theorem State.reset_cause : State.reset.cause = .noError := rfl
@[simp] theorem State.reset_resp : State.reset.resp = 0 := rfl
@[simp] theorem State.reset_port : State.reset.port = [] := rfl
@[simp] theorem State.reset_returned : State.reset.returned = [] := rfl
@[simp] theorem State.reset_resetPin : State.reset.resetPin = false := rfl
@[simp] theorem State.reset_coreSteps : State.reset.coreSteps = 0 := rfl
@[simp] theorem State.reset_polls : State.reset.polls = 0 := rfl

/-! ### BUSY and STATUS see only the fields they are made of (R40, R43) -/

theorem State.busy_eq (s : State) : s.busy = !s.pend.isEmpty := rfl

theorem State.busy_false_iff (s : State) : s.busy = false ↔ s.pend = [] := by
  simp [State.busy]

theorem State.busy_true_iff (s : State) : s.busy = true ↔ s.pend ≠ [] := by
  simp [State.busy]

theorem State.status_congr {s t : State} (h1 : t.pend = s.pend) (h2 : t.phase = s.phase) (h3 : t.fill = s.fill)
    (h4 : t.err = s.err) (h5 : t.cause = s.cause) : t.status = s.status := by
  simp [State.status, State.busy, State.dvalid, h1, h2, h3, h4, h5]

theorem State.clearError_of_raise (s : State) (c : Cause) : (s.raise c).clearError = s.clearError.respond 0 := by
  unfold State.raise; split <;> rfl

end Sys2Proof.Machine
end

