-- ==== Sys2Proof/Laws/Ops.lean ====
section
/-!
SUPPORT. What each shared operation can do, said once: sequencing, the partial block, and the message
intake of ABSORB (spec/45_host_commands.md R214).
-/

namespace Sys2Proof.Machine

/-! ### Sequencing -/

@[simp] theorem Result.andThen_next (s : State) (f : State → Result) : Result.andThen (.next s) f = f s := rfl

theorem Result.andThen_eq_next {r : Result} {f : State → Result} {t : State} :
    r.andThen f = .next t ↔ ∃ s, r = .next s ∧ f s = .next t := by
  cases r <;> simp [Result.andThen]

/-! ### The partial block (R34) -/

@[simp] theorem State.partialBlock_length (s : State) : s.partialBlock.length = s.fill.val := by
  simp [State.partialBlock, s.fill.isLt.le]

/-- Byte `i` of the partial block. -/
theorem State.partialBlock_getElem? (s : State) (i : Nat) :
    s.partialBlock[i]? = if i < s.fill.val then s.buf[i]? else none := by
  simp [State.partialBlock, List.getElem?_take]

/-- The partial block depends on `buf` and `fill` alone. -/
theorem State.partialBlock_congr {s t : State} (hb : t.buf = s.buf) (hf : t.fill = s.fill) :
    t.partialBlock = s.partialBlock := by unfold State.partialBlock; rw [hb, hf]

/-- The partial block depends on the valid bytes of `buf` alone. -/
theorem State.partialBlock_eq {s t : State} (hf : t.fill = s.fill)
    (hb : ∀ (i : Nat) (h : i < 64), i < s.fill.val → t.buf[i] = s.buf[i]) : t.partialBlock = s.partialBlock := by
  apply List.ext_getElem?
  intro i
  rw [State.partialBlock_getElem?, State.partialBlock_getElem?, hf]
  split
  · rename_i hi
    have h64 := lt_trans hi s.fill.isLt
    rw [Vector.getElem?_eq_getElem h64, Vector.getElem?_eq_getElem h64, hb i h64 hi]
  · rfl

/-- The byte that is put joins the partial block. -/
theorem State.take_putByte (s : State) (b : Byte) :
    (s.putByte b).buf.toList.take (s.fill.val + 1) = s.partialBlock ++ [b] := by
  have hlt := s.fill.isLt
  apply List.ext_getElem?
  intro i
  rw [State.putByte_buf, Vector.toList_set, List.getElem?_take]
  rcases lt_trichotomy i s.fill.val with h | h | h
  · rw [if_pos (by omega), List.getElem?_set_ne (by omega), List.getElem?_append_left (by simpa using h),
      State.partialBlock_getElem?, if_pos h, Vector.getElem?_toList]
  · subst h
    rw [if_pos (by omega), List.getElem?_set_self (by simp), List.getElem?_append_right (by simp)]
    simp
  · rw [if_neg (by omega), List.getElem?_eq_none (by simp; omega)]

/-- A block is the block of its bytes (R106). -/
theorem blockAt_of_block (blk : Block) : blockAt blk.toList 0 = blk := by
  apply Vector.ext
  intro i hi
  simp [blockAt, List.getD_eq_getElem?_getD]

/-! ### `buf` after FINAL (R34, R218) -/

/-- A byte of `buf` after FINAL: as it was, or that of a tail block (log 5). -/
theorem State.bufAfterTail_getElem (s : State) (tail : List Block) (i : Nat) (h : i < 64) :
    (s.bufAfterTail tail)[i] = s.buf[i] ∨ ∃ blk ∈ tail, (s.bufAfterTail tail)[i] = blk[i] := by
  have e : (s.bufAfterTail tail)[i] =
      match (tail.take Config.finalTailBlocks).getLast? with
      | some blk => blk[i]
      | none => s.buf[i] := by rw [State.bufAfterTail, Vector.getElem_ofFn]; rfl
  cases hl : (tail.take Config.finalTailBlocks).getLast? with
  | none => exact .inl (by rw [e, hl])
  | some blk => exact .inr ⟨blk, List.mem_of_mem_take (List.mem_of_getLast? hl), by rw [e, hl]⟩

/-! ### The intake of one byte (R214) -/

/-- What one turn of the loop does: it stores and counts the byte, which joins the partial block or fills it, and a block it fills
is queued. -/
theorem absorbByte_spec (b : Byte) (s : State) :
    absorbByte b s = { s with
      buf := s.buf.set s.fill.val b, fill := (absorbByte b s).fill, len := s.len + 1, pend := (absorbByte b s).pend } ∧
    (absorbByte b s).fill.val = (s.fill.val + 1) % 64 ∧
    (absorbByte b s).partialBlock = (if s.fill.val + 1 < 64 then s.partialBlock ++ [b] else []) ∧
    (absorbByte b s).pend =
      (if s.fill.val + 1 < 64 then s.pend else s.pend ++ [blockAt (s.partialBlock ++ [b]) 0]) := by
  have ht := s.take_putByte b
  unfold absorbByte
  by_cases h : s.fill.val + 1 < 64
  · rw [dif_pos h]
    exact ⟨rfl, (Nat.mod_eq_of_lt h).symm, by rw [if_pos h, ← ht]; rfl, by rw [if_pos h]; rfl⟩
  · have h63 : s.fill.val = 63 := by have := s.fill.isLt; omega
    rw [dif_neg h]
    refine ⟨rfl, by simp [h63], by rw [if_neg h]; simp [State.partialBlock], ?_⟩
    rw [if_neg h, ← ht, List.take_of_length_le (by simp [h63]), blockAt_of_block]

/-! ### The intake of the bytes of one ABSORB (R214) -/

/-- FRAME: the loop changes only `buf`, `fill`, `len` and `pend`, and counts every byte. -/
theorem absorbBytes_frame (bs : List Byte) (s : State) :
    absorbBytes bs s = { s with
      buf := (absorbBytes bs s).buf, fill := (absorbBytes bs s).fill, len := s.len + bs.length,
      pend := (absorbBytes bs s).pend } := by
  induction bs generalizing s with
  | nil => rfl
  | cons b bs ih =>
    have e1 := (absorbByte_spec b s).1
    rw [absorbBytes, ih]
    generalize absorbByte b s = s1 at e1
    rw [e1]
    simp only [List.length_cons]
    congr 1; omega

/-- The partial block and the queue after the bytes of one ABSORB: where they do not reach 64 bytes they extend the partial
block, and where they do the block is queued and the rest begins the next. -/
theorem absorbBytes_spec {bs : List Byte} (s : State) (hl : bs.length ≤ 64) :
    (absorbBytes bs s).partialBlock =
      (if s.fill.val + bs.length < 64 then s.partialBlock ++ bs else (s.partialBlock ++ bs).drop 64) ∧
    (absorbBytes bs s).pend =
      (if s.fill.val + bs.length < 64 then s.pend else s.pend ++ [blockAt (s.partialBlock ++ bs) 0]) := by
  induction bs generalizing s with
  | nil =>
    have := s.fill.isLt
    simp [absorbBytes]
  | cons b bs ih =>
    obtain ⟨-, f1, p1, q1⟩ := absorbByte_spec b s
    simp only [List.length_cons] at hl ⊢
    obtain ⟨p2, q2⟩ := ih (absorbByte b s) (by omega)
    have hs := s.fill.isLt
    rw [absorbBytes]
    by_cases hb : s.fill.val + 1 < 64
    · rw [Nat.mod_eq_of_lt hb] at f1
      rw [if_pos hb] at p1 q1
      rw [p2, q2, f1, p1, q1]
      simp [Nat.add_assoc, Nat.add_comm 1]
    · have h63 : s.fill.val = 63 := by omega
      rw [h63] at f1
      rw [if_neg hb] at p1 q1
      have hlt : (absorbByte b s).fill.val + bs.length < 64 := by omega
      have hge : ¬ s.fill.val + (bs.length + 1) < 64 := by omega
      have hpl : (s.partialBlock ++ [b]).length = 64 := by simp [h63]
      have hcons : s.partialBlock ++ b :: bs = (s.partialBlock ++ [b]) ++ bs := by simp
      rw [p2, q2, if_pos hlt, if_pos hlt, if_neg hge, if_neg hge, p1, q1, hcons, List.drop_append_of_le_length hpl.ge,
        List.drop_of_length_le hpl.le, blockAt_append_left (p := s.partialBlock ++ [b]) hpl.ge]
      simp

end Sys2Proof.Machine
end

