-- ==== Sys2Proof/Laws/Exec.lean ====
section
/-!
SUPPORT. What each accepted command can do (spec/45_host_commands.md R210-R228): where it completes, and by inversion what it
did where it went on.
-/

namespace Sys2Proof.Machine

theorem lanes_length (n1 : BitVec 2) (data : Word) : (lanes n1 data).length = byteCount n1 := by
  have := n1.isLt
  simp only [lanes, bytes32, byteCount, List.length_take, List.length_cons, List.length_nil]; omega

theorem byteCount_le (n1 : BitVec 2) : byteCount n1 ≤ 4 := by
  have := n1.isLt; unfold byteCount; omega

/-- The bytes of an ABSORB whose DATA is put together from them (R64, R90). -/
theorem lanes_be32 (n1 : BitVec 2) (b0 b1 b2 b3 : Byte) :
    lanes n1 (be32 b0 b1 b2 b3) = [b0, b1, b2, b3].take (byteCount n1) := by rw [lanes, bytes32_be32]

/-- Byte `k` of an ABSORB (R64). -/
theorem lanes_getElem? (n1 : BitVec 2) (data : Word) (k : Nat) :
    (lanes n1 data)[k]? = if k ≤ n1.toNat then some (byteOf data k) else none := by
  have h := n1.isLt
  have hn : n1.toNat = 0 ∨ n1.toNat = 1 ∨ n1.toNat = 2 ∨ n1.toNat = 3 := by omega
  rcases k with _ | _ | _ | _ | k <;> rcases hn with hn | hn | hn | hn <;>
    simp [lanes, bytes32, byteCount, hn]

/-! ### Completion -/

theorem execAbsorb_of_wrongPhase {s : State} (n1 : BitVec 2) (data : Word) (h : s.phase ≠ .absorb) :
    execAbsorb n1 data s = .next (s.raise .seqErr) := by simp [execAbsorb, h]

theorem execAbsorb_of_overlong {s : State} {n1 : BitVec 2} (data : Word) (h : s.phase = .absorb)
    (h' : s.len + byteCount n1 > Config.maxMsgBytes) : execAbsorb n1 data s = .next (s.raise .lenOvf) := by
  simp [execAbsorb, h, h']

theorem execAbsorb_of_fits {s : State} {n1 : BitVec 2} (data : Word) (h : s.phase = .absorb)
    (h' : s.len + byteCount n1 ≤ Config.maxMsgBytes) :
    execAbsorb n1 data s = .next ((absorbBytes (lanes n1 data) s).respond 0) := by
  unfold execAbsorb; rw [if_neg (by simp [h]), if_neg (by omega)]

/-- An ABSORB that fits: the partial block and the queue it leaves (R214). -/
theorem execAbsorb_spec {s : State} (n1 : BitVec 2) (data : Word)
    (h : s.phase = .absorb) (h' : s.len + byteCount n1 ≤ Config.maxMsgBytes) :
    ∃ t, execAbsorb n1 data s = .next t ∧
      t = { s with buf := t.buf, fill := t.fill, len := s.len + byteCount n1, pend := t.pend, resp := 0 } ∧
      t.partialBlock = (if s.fill.val + byteCount n1 < 64 then s.partialBlock ++ lanes n1 data
        else (s.partialBlock ++ lanes n1 data).drop 64) ∧
      t.pend = (if s.fill.val + byteCount n1 < 64 then s.pend
        else s.pend ++ [blockAt (s.partialBlock ++ lanes n1 data) 0]) := by
  obtain ⟨h3, h4⟩ := absorbBytes_spec (bs := lanes n1 data) s (by rw [lanes_length]; have := byteCount_le n1; omega)
  have h2 := absorbBytes_frame (lanes n1 data) s
  rw [lanes_length] at h2 h3 h4
  refine ⟨_, execAbsorb_of_fits data h h', ?_, h3, h4⟩
  simp only [State.respond_buf, State.respond_fill, State.respond_pend]
  generalize absorbBytes (lanes n1 data) s = u at h2
  rw [h2]; rfl

theorem execFinal_of_wrongPhase {s : State} (h : s.phase ≠ .absorb) : execFinal s = .next (s.raise .seqErr) := by
  simp [execFinal, h]

theorem execFinal_spec {s : State} (h : s.phase = .absorb) :
    execFinal s = .next { s with
      buf := s.bufAfterTail (padTail s.partialBlock (bitLength s.len))
      pend := s.pend ++ padTail s.partialBlock (bitLength s.len), fill := 0, phase := .finalizing, resp := 0 } := by
  simp [execFinal, h, State.respond]

theorem execRddig_of_wrongPhase {s : State} {idx : BitVec 4} (hi : idx.toNat < 8) (h : s.phase ≠ .done) :
    execRddig idx s = .next (s.raise .seqErr) := by simp [execRddig, hi, h]

theorem execRddig_of_done {s : State} {idx : BitVec 4} (hi : idx.toNat < 8) (h : s.phase = .done) :
    execRddig idx s = .next (s.respond s.chainH[idx.toNat]) := by simp [execRddig, hi, h]

theorem execRdhex_of_wrongPhase {s : State} (idx : BitVec 4) (h : s.phase ≠ .done) :
    execRdhex idx s = .next (s.raise .seqErr) := by simp [execRdhex, h]

theorem execRdhex_of_done {s : State} (idx : BitVec 4) (h : s.phase = .done) :
    execRdhex idx s = .next (s.respond (hexGroup (toHex (digestBytes s.chainH)) idx.toNat)) := by simp [execRdhex, h]

/-! ### Inversion: what happened where a command went on -/

theorem execAbsorb_cases {s t : State} {n1 : BitVec 2} {data : Word} (h : execAbsorb n1 data s = .next t) :
    (s.phase ≠ .absorb ∧ t = s.raise .seqErr) ∨
    (s.phase = .absorb ∧ s.len + byteCount n1 > Config.maxMsgBytes ∧ t = s.raise .lenOvf) ∨
    (s.phase = .absorb ∧ s.len + byteCount n1 ≤ Config.maxMsgBytes ∧
      t = (absorbBytes (lanes n1 data) s).respond 0) := by
  by_cases h1 : s.phase = .absorb
  · by_cases h2 : s.len + byteCount n1 > Config.maxMsgBytes
    · rw [execAbsorb_of_overlong data h1 h2] at h
      exact .inr (.inl ⟨h1, h2, (Host.Outcome.next.inj h).symm⟩)
    · rw [execAbsorb_of_fits data h1 (by omega)] at h
      exact .inr (.inr ⟨h1, by omega, (Host.Outcome.next.inj h).symm⟩)
  · rw [execAbsorb_of_wrongPhase n1 data h1] at h
    exact .inl ⟨h1, (Host.Outcome.next.inj h).symm⟩

theorem execFinal_cases {s t : State} (h : execFinal s = .next t) :
    (s.phase ≠ .absorb ∧ t = s.raise .seqErr) ∨
    (s.phase = .absorb ∧ t = { s with
        buf := s.bufAfterTail (padTail s.partialBlock (bitLength s.len))
        pend := s.pend ++ padTail s.partialBlock (bitLength s.len), fill := 0, phase := .finalizing, resp := 0 }) := by
  by_cases h1 : s.phase = .absorb
  · rw [execFinal_spec h1] at h
    exact .inr ⟨h1, (Host.Outcome.next.inj h).symm⟩
  · rw [execFinal_of_wrongPhase h1] at h
    exact .inl ⟨h1, (Host.Outcome.next.inj h).symm⟩

theorem execRddig_cases {s t : State} {idx : BitVec 4} (h : execRddig idx s = .next t) :
    (8 ≤ idx.toNat ∧ t = s.raise .illegalCmd) ∨
    (idx.toNat < 8 ∧ s.phase ≠ .done ∧ t = s.raise .seqErr) ∨
    (∃ hi : idx.toNat < 8, s.phase = .done ∧ t = s.respond s.chainH[idx.toNat]) := by
  by_cases hi : idx.toNat < 8
  · by_cases h1 : s.phase = .done
    · rw [execRddig_of_done hi h1] at h
      exact .inr (.inr ⟨hi, h1, (Host.Outcome.next.inj h).symm⟩)
    · rw [execRddig_of_wrongPhase hi h1] at h
      exact .inr (.inl ⟨hi, h1, (Host.Outcome.next.inj h).symm⟩)
  · unfold execRddig at h
    rw [dif_neg hi] at h
    exact .inl ⟨by omega, (Host.Outcome.next.inj h).symm⟩

theorem execRdhex_cases {s t : State} {idx : BitVec 4} (h : execRdhex idx s = .next t) :
    (s.phase ≠ .done ∧ t = s.raise .seqErr) ∨
    (s.phase = .done ∧ t = s.respond (hexGroup (toHex (digestBytes s.chainH)) idx.toNat)) := by
  by_cases h1 : s.phase = .done
  · rw [execRdhex_of_done idx h1] at h
    exact .inr ⟨h1, (Host.Outcome.next.inj h).symm⟩
  · rw [execRdhex_of_wrongPhase idx h1] at h
    exact .inl ⟨h1, (Host.Outcome.next.inj h).symm⟩

/-- Every command completes, in every state: an error is recorded and the machine goes on (R263). -/
theorem exec_completes (i : Instr) (s : State) : ∃ t, exec i s = .next t := by
  cases i with
  | nop => exact ⟨_, rfl⟩
  | init => exact ⟨_, rfl⟩
  | absorb n1 data => simp only [exec, execAbsorb]; split_ifs <;> exact ⟨_, rfl⟩
  | final => simp only [exec, execFinal]; split_ifs <;> exact ⟨_, rfl⟩
  | rddig idx => simp only [exec, execRddig]; split_ifs <;> exact ⟨_, rfl⟩
  | rdhex idx => simp only [exec, execRdhex]; split_ifs <;> exact ⟨_, rfl⟩
  | rdstat => exact ⟨_, rfl⟩

/-- No command touches the CORE agent's registers, the port or the model's own fields. -/
theorem exec_core_fields {i : Instr} {s t : State} (h : exec i s = .next t) :
    t.run = s.run ∧ t.t = s.t ∧ t.v = s.v ∧ t.w = s.w ∧ t.port = s.port ∧ t.returned = s.returned ∧
      t.resetPin = s.resetPin ∧ t.coreSteps = s.coreSteps ∧ t.polls = s.polls := by
  cases i with
  | nop => obtain rfl := Host.Outcome.next.inj h; simp
  | init => obtain rfl := Host.Outcome.next.inj h; simp
  | absorb n1 data =>
    rcases execAbsorb_cases h with ⟨-, rfl⟩ | ⟨-, -, rfl⟩ | ⟨-, -, rfl⟩
    · simp
    · simp
    · have e := absorbBytes_frame (lanes n1 data) s
      simp only [State.respond_run, State.respond_t, State.respond_v, State.respond_w, State.respond_port,
        State.respond_returned, State.respond_resetPin, State.respond_coreSteps, State.respond_polls]
      generalize absorbBytes (lanes n1 data) s = u at e
      rw [e]; simp
  | final => rcases execFinal_cases h with ⟨-, rfl⟩ | ⟨-, rfl⟩ <;> simp
  | rddig idx => rcases execRddig_cases h with ⟨-, rfl⟩ | ⟨-, -, rfl⟩ | ⟨_, -, rfl⟩ <;> simp
  | rdhex idx => rcases execRdhex_cases h with ⟨-, rfl⟩ | ⟨-, rfl⟩ <;> simp
  | rdstat => obtain rfl := Host.Outcome.next.inj h; simp

/-- Only INIT writes `H` (R31). -/
theorem exec_chainH {i : Instr} {s t : State} (h : exec i s = .next t) :
    t.chainH = if i = .init then iv else s.chainH := by
  cases i with
  | nop => obtain rfl := Host.Outcome.next.inj h; simp
  | init => obtain rfl := Host.Outcome.next.inj h; simp
  | absorb n1 data =>
    rcases execAbsorb_cases h with ⟨-, rfl⟩ | ⟨-, -, rfl⟩ | ⟨-, -, rfl⟩
    · simp
    · simp
    · have e := absorbBytes_frame (lanes n1 data) s
      simp only [State.respond_chainH]
      generalize absorbBytes (lanes n1 data) s = u at e
      rw [e]; simp
  | final => rcases execFinal_cases h with ⟨-, rfl⟩ | ⟨-, rfl⟩ <;> simp
  | rddig idx => rcases execRddig_cases h with ⟨-, rfl⟩ | ⟨-, -, rfl⟩ | ⟨_, -, rfl⟩ <;> simp
  | rdhex idx => rcases execRdhex_cases h with ⟨-, rfl⟩ | ⟨-, rfl⟩ <;> simp
  | rdstat => obtain rfl := Host.Outcome.next.inj h; simp

end Sys2Proof.Machine
end

