-- ==== Sys2Proof/Laws/Sequencer.lean ====
section
/-!
SUPPORT. The CORE agent (spec/43_round_processor.md R148-R152): where each of its steps completes, what it did where it went
on, and the rounds it carries out.
-/

namespace Sys2Proof.Machine

/-! ### Rounds (R147) -/

@[simp] theorem rounds_zero (v : Words8) (w : Words64) : rounds v w 0 = v := rfl

/-- Round `n` reads `K[n]` and `W[n]`. -/
theorem rounds_succ (v : Words8) (w : Words64) {n : Nat} (h : n < 64) :
    rounds v w (n + 1) = round (rounds v w n) kRom[n] w[n] := by
  simp [rounds, Vector.getElem?_eq_getElem h]

/-! ### Completion -/

theorem coreStep_cstart {s : State} {blk : Block} {rest : List Block} (hr : s.run = false) (hp : s.pend = blk :: rest) :
    coreStep s = .next { s with w := schedule blk, v := s.chainH, t := 0, run := true } := by
  simp [coreStep, hr, hp, cstart]

theorem coreStep_cround {s : State} (hr : s.run = true) (hn : s.t.val < 64) :
    coreStep s = .next { s with v := round s.v kRom[s.t.val] s.w[s.t.val], t := ⟨s.t.val + 1, by omega⟩ } := by
  simp [coreStep, hr, hn, cround, Fin.succ]

theorem coreStep_cmix {s : State} (hr : s.run = true) (hn : s.t.val = 64) :
    coreStep s = .next { s with
      chainH := mix s.chainH s.v, pend := s.pend.tail, run := false, phase := phaseAfterMix s.phase s.pend.tail } := by
  simp [coreStep, hr, hn, cmix]

theorem coreStep_idle {s : State} (hr : s.run = false) (hp : s.pend = []) : coreStep s = .next s := by
  simp [coreStep, hr, hp]

/-- CORE's step completes, in every state (R152: CORE steps never fail). -/
theorem coreStep_completes (s : State) : ∃ t, coreStep s = .next t := by
  cases hr : s.run with
  | true =>
    by_cases hn : s.t.val < 64
    · exact ⟨_, coreStep_cround hr hn⟩
    · exact ⟨_, coreStep_cmix hr (by have := s.t.isLt; omega)⟩
  | false =>
    cases hp : s.pend with
    | nil => exact ⟨_, coreStep_idle hr hp⟩
    | cons blk rest => exact ⟨_, coreStep_cstart hr hp⟩

/-! ### Inversion -/

/-- The four things a CORE step can be, in every state. -/
theorem coreStep_cases {s t : State} (hs : coreStep s = .next t) :
    (s.run = false ∧ s.pend = [] ∧ t = s) ∨
    (s.run = false ∧ ∃ blk rest, s.pend = blk :: rest ∧
      t = { s with w := schedule blk, v := s.chainH, t := 0, run := true }) ∨
    (s.run = true ∧ ∃ hn : s.t.val < 64,
      t = { s with v := round s.v kRom[s.t.val] s.w[s.t.val], t := ⟨s.t.val + 1, by omega⟩ }) ∨
    (s.run = true ∧ s.t = 64 ∧
      t = { s with chainH := mix s.chainH s.v, pend := s.pend.tail, run := false,
                   phase := phaseAfterMix s.phase s.pend.tail }) := by
  by_cases hr : s.run = true
  · by_cases hn : s.t.val < 64
    · rw [coreStep_cround hr hn] at hs
      exact .inr (.inr (.inl ⟨hr, hn, (Host.Outcome.next.inj hs).symm⟩))
    · have h64 : s.t.val = 64 := by have := s.t.isLt; omega
      rw [coreStep_cmix hr h64] at hs
      exact .inr (.inr (.inr ⟨hr, Fin.ext h64, (Host.Outcome.next.inj hs).symm⟩))
  · have hr' : s.run = false := by simpa using hr
    obtain hp | ⟨blk, rest, hp⟩ : s.pend = [] ∨ ∃ blk rest, s.pend = blk :: rest := by cases s.pend <;> simp
    · rw [coreStep_idle hr' hp] at hs
      exact .inl ⟨hr', hp, (Host.Outcome.next.inj hs).symm⟩
    · rw [coreStep_cstart hr' hp] at hs
      exact .inr (.inl ⟨hr', blk, rest, hp, (Host.Outcome.next.inj hs).symm⟩)

/-- FRAME, in every state: a CORE step leaves everything but the elements R148-R150 write. -/
theorem coreStep_frame {s t : State} (hs : coreStep s = .next t) :
    t = { s with chainH := t.chainH, phase := t.phase, pend := t.pend, run := t.run, t := t.t, v := t.v, w := t.w } := by
  rcases coreStep_cases hs with ⟨-, -, rfl⟩ | ⟨-, _, _, -, rfl⟩ | ⟨-, _, rfl⟩ | ⟨-, -, rfl⟩ <;> rfl

/-! ### Runs of CORE -/

theorem coreStepN_succ {n : Nat} {s t : State} (h : coreStep s = .next t) : coreStepN (n + 1) s = coreStepN n t := by
  simp [coreStepN, h]

theorem coreStepN_add {m n : Nat} {s t : State} (h : coreStepN m s = .next t) :
    coreStepN (m + n) s = coreStepN n t := by
  induction m generalizing s with
  | zero => obtain rfl := Host.Outcome.next.inj h; simp
  | succ m ih =>
    obtain ⟨u, h1, h2⟩ := Result.andThen_eq_next.1 h
    rw [show m + 1 + n = (m + n) + 1 by omega, coreStepN_succ h1, ih h2]

/-- `n` rounds of a running block (R149). -/
theorem coreStepN_rounds {s : State} {v : Words8} (hr : s.run = true) {n : Nat} (hn : s.t.val + n ≤ 64)
    (hv : s.v = rounds v s.w s.t.val) :
    coreStepN n s = .next { s with v := rounds v s.w (s.t.val + n), t := ⟨s.t.val + n, by omega⟩ } := by
  induction n generalizing s with
  | zero => simp [coreStepN, ← hv]
  | succ n ih =>
    have hk : s.t.val < 64 := by omega
    rw [coreStepN_succ (coreStep_cround hr hk)]
    refine (ih (s := { s with v := round s.v kRom[s.t.val] s.w[s.t.val], t := ⟨s.t.val + 1, by omega⟩ }) hr
      (by simp only; omega) (by simp only; rw [hv, rounds_succ _ _ hk])).trans ?_
    simp only [show s.t.val + 1 + n = s.t.val + (n + 1) by omega]

end Sys2Proof.Machine
end

