-- ==== Sys2Proof/Laws/Port.lean ====
section
/-!
SUPPORT. The command port, the turns, and what a step of the machine can be (spec/45_host_commands.md R200-R202).
-/

namespace Sys2Proof.Machine

/-! ### Acceptance (R200) -/

theorem acceptedWhileBusy_iff (c : Command) :
    acceptedWhileBusy c = true ↔ decode c = .ok .nop ∨ decode c = .ok .rdstat := by
  unfold acceptedWhileBusy
  split <;> simp_all

theorem State.accepts_iff (s : State) (c : Command) :
    s.accepts c = true ↔ s.busy = false ∨ decode c = .ok .nop ∨ decode c = .ok .rdstat := by
  unfold State.accepts
  rw [← acceptedWhileBusy_iff]
  simp

theorem State.accepts_of_not_busy {s : State} (h : s.busy = false) (c : Command) : s.accepts c = true :=
  (s.accepts_iff c).2 (.inl h)

theorem State.hostReady_of_accepts {s : State} {c : Command} {rest : List Command} (hp : s.port = c :: rest)
    (h : s.accepts c = true) : s.hostReady = some c := by simp [State.hostReady, hp, h]

theorem State.hostReady_of_held {s : State} {c : Command} {rest : List Command} (hp : s.port = c :: rest)
    (h : s.accepts c = false) : s.hostReady = none := by simp [State.hostReady, hp, h]

theorem State.hostReady_of_nil {s : State} (hp : s.port = []) : s.hostReady = none := by simp [State.hostReady, hp]

theorem State.hostReady_eq_some {s : State} {c : Command} (h : s.hostReady = some c) :
    s.accepts c = true ∧ ∃ rest, s.port = c :: rest := by
  unfold State.hostReady at h
  split at h
  · simp at h
  · rename_i d rest hp
    split at h
    · rename_i ha
      obtain rfl := Option.some.inj h
      exact ⟨ha, rest, hp⟩
    · simp at h

theorem State.coreEnabled_iff (s : State) : s.coreEnabled = true ↔ s.run = true ∨ s.busy = true := by
  simp [State.coreEnabled]

theorem State.busy_of_held {s : State} {c : Command} (h : s.accepts c = false) : s.busy = true := by
  by_contra hb
  rw [State.accepts_of_not_busy (by simpa using hb)] at h
  simp at h

/-! ### Turns -/

theorem State.turn_reset {s : State} (h : s.resetPin = true) : s.turn = .reset := by simp [State.turn, h]

theorem State.turn_host {s : State} {c : Command} (h : s.resetPin = false) (hr : s.hostReady = some c)
    (ht : s.coreEnabled = false ∨ s.polls < Config.hostTurns s.coreSteps) : s.turn = .host c := by
  unfold State.turn
  rw [h, hr]
  rcases ht with ht | ht
  · simp [ht]
  · cases s.coreEnabled <;> simp [ht]

theorem State.turn_core_of_held {s : State} (h : s.resetPin = false) (hr : s.hostReady = none)
    (hc : s.coreEnabled = true) : s.turn = .core := by simp [State.turn, h, hr, hc]

theorem State.turn_idle {s : State} (h : s.resetPin = false) (hr : s.hostReady = none)
    (hc : s.coreEnabled = false) : s.turn = .idle := by simp [State.turn, h, hr, hc]

/-- Whose turn it can be, by inversion. -/
theorem State.turn_cases (s : State) :
    (s.resetPin = true ∧ s.turn = .reset) ∨
    (s.resetPin = false ∧ ∃ c rest, s.port = c :: rest ∧ s.accepts c = true ∧ s.turn = .host c) ∨
    (s.resetPin = false ∧ s.coreEnabled = true ∧ s.turn = .core) ∨
    (s.resetPin = false ∧ s.coreEnabled = false ∧ s.turn = .idle) := by
  cases hr : s.resetPin with
  | true => exact .inl ⟨rfl, State.turn_reset hr⟩
  | false =>
    right
    cases hh : s.hostReady with
    | none =>
      right
      cases hc : s.coreEnabled with
      | true => exact .inl ⟨rfl, rfl, State.turn_core_of_held hr hh hc⟩
      | false => exact .inr ⟨rfl, rfl, State.turn_idle hr hh hc⟩
    | some c =>
      obtain ⟨ha, rest, hp⟩ := State.hostReady_eq_some hh
      cases hc : s.coreEnabled with
      | false => exact .inl ⟨rfl, c, rest, hp, ha, State.turn_host hr hh (.inl hc)⟩
      | true =>
        by_cases ht : s.polls < Config.hostTurns s.coreSteps
        · exact .inl ⟨rfl, c, rest, hp, ha, State.turn_host hr hh (.inr ht)⟩
        · exact .inr (.inl ⟨rfl, rfl, by simp [State.turn, hr, hh, hc, ht]⟩)

/-! ### A step -/

theorem hostStep_eq_next {c : Command} {s t : State} :
    hostStep c s = .next t ↔ ∃ u, dispatchCommand c s.takeCommand = .next u ∧ t = u.returnResp := by
  unfold hostStep
  rw [Result.andThen_eq_next]
  constructor
  · rintro ⟨u, h1, h2⟩; exact ⟨u, h1, (Host.Outcome.next.inj h2).symm⟩
  · rintro ⟨u, h1, rfl⟩; exact ⟨u, h1, rfl⟩

theorem countedCoreStep_eq_next {s t : State} :
    countedCoreStep s = .next t ↔
      ∃ u, coreStep s = .next u ∧ t = { u with coreSteps := s.coreSteps + 1, polls := 0 } := by
  unfold countedCoreStep
  rw [Result.andThen_eq_next]
  constructor
  · rintro ⟨u, h1, h2⟩; exact ⟨u, h1, (Host.Outcome.next.inj h2).symm⟩
  · rintro ⟨u, h1, rfl⟩; exact ⟨u, h1, rfl⟩

theorem dispatchCommand_of_ok {c : Command} {i : Instr} (h : decode c = .ok i) (s : State) :
    dispatchCommand c s = exec i s := by simp [dispatchCommand, h]

theorem dispatchCommand_of_error {c : Command} {e : IllegalWord} (h : decode c = .error e) (s : State) :
    dispatchCommand c s = .next (s.raise .illegalCmd) := by simp [dispatchCommand, h]

/-- What a dispatched command did: it raised ILLEGAL_CMD, or it ran the command it decodes to. -/
theorem dispatchCommand_cases {c : Command} {s t : State} (h : dispatchCommand c s = .next t) :
    (∃ e, decode c = .error e ∧ t = s.raise .illegalCmd) ∨ (∃ i, decode c = .ok i ∧ exec i s = .next t) := by
  cases hd : decode c with
  | ok i => rw [dispatchCommand_of_ok hd] at h; exact .inr ⟨i, rfl, h⟩
  | error e =>
    rw [dispatchCommand_of_error hd] at h
    exact .inl ⟨e, rfl, (Host.Outcome.next.inj h).symm⟩

theorem step_of_turn_host {s : State} {c : Command} (h : s.turn = .host c) : step s = hostStep c s := by
  simp [step, h]

theorem step_of_turn_core {s : State} (h : s.turn = .core) : step s = countedCoreStep s := by simp [step, h]

/-- The five things a step can be, in every state in which it goes on: reset, an illegal word, a command, CORE's step, or
nothing. -/
theorem step_cases {s t : State} (h : step s = .next t) :
    (s.resetPin = true ∧ t = s.applyReset) ∨
    (∃ c rest e, s.resetPin = false ∧ s.port = c :: rest ∧ s.accepts c = true ∧ decode c = .error e ∧
      t = (s.takeCommand.raise .illegalCmd).returnResp) ∨
    (∃ c rest i u, s.resetPin = false ∧ s.port = c :: rest ∧ s.accepts c = true ∧ decode c = .ok i ∧
      exec i s.takeCommand = .next u ∧ t = u.returnResp) ∨
    (s.resetPin = false ∧ s.coreEnabled = true ∧ ∃ u, coreStep s = .next u ∧
      t = { u with coreSteps := s.coreSteps + 1, polls := 0 }) ∨
    (s.resetPin = false ∧ s.coreEnabled = false ∧ t = s) := by
  rcases s.turn_cases with ⟨hr, ht⟩ | ⟨hr, c, rest, hp, ha, ht⟩ | ⟨hr, hc, ht⟩ | ⟨hr, hc, ht⟩
  · simp only [step, ht] at h
    exact .inl ⟨hr, (Host.Outcome.next.inj h).symm⟩
  · rw [step_of_turn_host ht, hostStep_eq_next] at h
    obtain ⟨u, h1, rfl⟩ := h
    rcases dispatchCommand_cases h1 with ⟨e, hd, rfl⟩ | ⟨i, hd, hx⟩
    · exact .inr (.inl ⟨c, rest, e, hr, hp, ha, hd, rfl⟩)
    · exact .inr (.inr (.inl ⟨c, rest, i, u, hr, hp, ha, hd, hx, rfl⟩))
  · rw [step_of_turn_core ht, countedCoreStep_eq_next] at h
    obtain ⟨u, h1, rfl⟩ := h
    exact .inr (.inr (.inr (.inl ⟨hr, hc, u, h1, rfl⟩)))
  · simp only [step, ht] at h
    exact .inr (.inr (.inr (.inr ⟨hr, hc, (Host.Outcome.next.inj h).symm⟩)))

/-- `withFetchWord` in every state: the very next step takes and dispatches that pair. -/
theorem step_withFetchWord (s : State) (nbits w : Nat) :
    step (s.withFetchWord nbits w) = hostStep (commandOfBits nbits w) (s.withFetchWord nbits w) := by
  apply step_of_turn_host
  have hb : (s.withFetchWord nbits w).busy = false := rfl
  exact State.turn_host rfl (State.hostReady_of_accepts rfl (State.accepts_of_not_busy hb _)) (.inl rfl)

end Sys2Proof.Machine
end

