-- ==== Sys2Proof/Laws/Invariant.lean ====
section
/-!
SUPPORT. The invariant of Safety.lean, part by part: what it depends on, and that each command and each CORE step keeps it; and the small
lemmas of agreement where something has been written.
-/

namespace Sys2Proof.Machine

/-- The invariant reads eleven of the elements of R30, and none of the model's own fields. -/
theorem State.Inv.congr {s t : State} (h : s.Inv) (h1 : t.pend = s.pend) (h2 : t.phase = s.phase) (h3 : t.run = s.run)
    (h4 : t.err = s.err) (h5 : t.cause = s.cause) (h6 : t.chainH = s.chainH) (h8 : t.fill = s.fill)
    (h9 : t.len = s.len) (h10 : t.t = s.t) (h11 : t.v = s.v) (h12 : t.w = s.w) : t.Inv where
  pendShort := by rw [h1]; exact h.pendShort
  busyPhase := by rw [h1, h2]; exact h.busyPhase
  absorbOne := by rw [h1, h2]; exact h.absorbOne
  finalizingBusy := by rw [h1, h2]; exact h.finalizingBusy
  runBusy := by rw [h1, h3]; exact h.runBusy
  errCause := by rw [h4, h5]; exact h.errCause
  lenBound := by rw [h9]; exact h.lenBound
  fillOfLen := by rw [h2, h8, h9]; exact h.fillOfLen
  fillClosed := by rw [h2, h8]; exact h.fillClosed
  running := by rw [h1, h3, h6, h10, h11, h12]; exact h.running

theorem State.Inv.respond {s : State} (h : s.Inv) (x : Word) : (s.respond x).Inv :=
  h.congr rfl rfl rfl rfl rfl rfl rfl rfl rfl rfl rfl

theorem State.Inv.takeCommand {s : State} (h : s.Inv) : s.takeCommand.Inv :=
  h.congr rfl rfl rfl rfl rfl rfl rfl rfl rfl rfl rfl

theorem State.Inv.returnResp {s : State} (h : s.Inv) : s.returnResp.Inv :=
  h.congr rfl rfl rfl rfl rfl rfl rfl rfl rfl rfl rfl

/-- An error is recorded with its cause (R42, R263). -/
theorem State.Inv.raise {s : State} (h : s.Inv) {c : Cause} (hc : c ≠ .noError) : (s.raise c).Inv := by
  have hec : (s.raise c).err = true ↔ (s.raise c).cause ≠ .noError := by
    rw [State.raise_err, State.raise_cause]
    by_cases he : s.err = true
    · simpa [he] using h.errCause.1 he
    · simpa [he] using hc
  constructor
  · simpa using h.pendShort
  · simpa using h.busyPhase
  · simpa using h.absorbOne
  · simpa using h.finalizingBusy
  · simpa using h.runBusy
  · exact hec
  · simpa using h.lenBound
  · simpa using h.fillOfLen
  · simpa using h.fillClosed
  · simpa using h.running

/-- Where BUSY = 0, CORE runs nothing (R38). -/
theorem State.Inv.not_run {s : State} (h : s.Inv) (hb : s.pend = []) : s.run = false := by
  by_contra hr
  exact h.runBusy (by simpa using hr) hb

/-- Where BUSY = 0, the phase is not FINALIZING (R214). -/
theorem State.Inv.not_finalizing {s : State} (h : s.Inv) (hb : s.pend = []) : s.phase ≠ .finalizing :=
  fun hf => h.finalizingBusy hf hb

/-! ### Commands -/

theorem State.Inv.execInit {s t : State} (h : s.Inv) (hb : s.pend = []) (hx : execInit s = .next t) : t.Inv := by
  obtain rfl := Host.Outcome.next.inj hx
  have hr := h.not_run hb
  constructor <;> simp [hb, hr, Config.maxMsgBytes]

theorem State.Inv.execAbsorb {s t : State} {n1 : BitVec 2} {data : Word} (h : s.Inv) (hb : s.pend = [])
    (hx : execAbsorb n1 data s = .next t) : t.Inv := by
  rcases execAbsorb_cases hx with ⟨-, rfl⟩ | ⟨-, -, rfl⟩ | ⟨hp, hl, -⟩
  · exact h.raise (by simp)
  · exact h.raise (by simp)
  · have hr := h.not_run hb
    obtain ⟨u, h1, h2, h3, h4⟩ := execAbsorb_spec n1 data hp hl
    rw [h1] at hx
    obtain rfl := Host.Outcome.next.inj hx
    have e1 : u.phase = .absorb := by rw [h2]; exact hp
    have e2 : u.run = false := by rw [h2]; exact hr
    have e3 : u.len = s.len + byteCount n1 := by rw [h2]
    have e4 : u.err = s.err ∧ u.cause = s.cause ∧ u.chainH = s.chainH := by rw [h2]; simp
    have e5 : u.pend = [] ∨ ∃ b, u.pend = [b] := by
      rw [h4]; split
      · exact .inl hb
      · exact .inr ⟨_, by rw [hb]; rfl⟩
    have e6 : u.fill.val = u.len % 64 := by
      have hlen := h.fillOfLen hp
      have h5 := congrArg List.length h3
      have hlt := s.fill.isLt
      have hbc := byteCount_le n1
      rw [State.partialBlock_length] at h5
      rw [h5, e3]
      split
      · simp only [List.length_append, lanes_length, State.partialBlock_length]; omega
      · simp only [List.length_drop, List.length_append, lanes_length, State.partialBlock_length]; omega
    constructor
    · rcases e5 with e | ⟨b, e⟩ <;> simp [e]
    · exact fun _ => .inl e1
    · intro _; rcases e5 with e | ⟨b, e⟩ <;> simp [e]
    · simp [e1]
    · simp [e2]
    · rw [e4.1, e4.2.1]; exact h.errCause
    · rw [e3]; exact hl
    · exact fun _ => e6
    · intro hne; exact absurd e1 hne
    · simp [e2]

theorem State.Inv.execFinal {s t : State} (h : s.Inv) (hb : s.pend = []) (hx : execFinal s = .next t) : t.Inv := by
  rcases execFinal_cases hx with ⟨-, rfl⟩ | ⟨hp, rfl⟩
  · exact h.raise (by simp)
  · have hr := h.not_run hb
    have hne := padTail_ne_nil s.partialBlock (bitLength s.len)
    constructor
    · simpa [hb] using padTail_length_le s.partialBlock (bitLength s.len)
    · simp
    · simp
    · simpa [hb] using hne
    · simp [hr]
    · exact h.errCause
    · exact h.lenBound
    · simp
    · simp
    · simp [hr]

/-- Every accepted command keeps the invariant: one accepted with BUSY = 0, or NOP or RDSTAT. -/
theorem State.Inv.exec {i : Instr} {s t : State} (h : s.Inv) (ha : s.pend = [] ∨ i = .nop ∨ i = .rdstat)
    (hx : exec i s = .next t) : t.Inv := by
  cases i with
  | nop => obtain rfl := Host.Outcome.next.inj hx; exact h.respond _
  | init => exact h.execInit (by simpa using ha) hx
  | absorb n1 data => exact h.execAbsorb (by simpa using ha) hx
  | final => exact h.execFinal (by simpa using ha) hx
  | rddig idx =>
    rcases execRddig_cases hx with ⟨-, rfl⟩ | ⟨-, -, rfl⟩ | ⟨_, -, rfl⟩
    · exact h.raise (by simp)
    · exact h.raise (by simp)
    · exact h.respond _
  | rdhex idx =>
    rcases execRdhex_cases hx with ⟨-, rfl⟩ | ⟨-, rfl⟩
    · exact h.raise (by simp)
    · exact h.respond _
  | rdstat => obtain rfl := Host.Outcome.next.inj hx; exact h.respond _

/-! ### CORE -/

theorem phaseAfterMix_cases (p : Phase) (rest : List Block) :
    (rest = [] ∧ p = .finalizing ∧ phaseAfterMix p rest = .done) ∨
      (¬(rest = [] ∧ p = .finalizing) ∧ phaseAfterMix p rest = p) := by
  unfold phaseAfterMix
  by_cases h : rest = [] ∧ p = .finalizing
  · exact .inl ⟨h.1, h.2, by simp [h.1, h.2]⟩
  · refine .inr ⟨h, ?_⟩
    rw [if_neg (by simpa using h)]

/-- Every CORE step keeps the invariant. -/
theorem State.Inv.coreStep {s t : State} (h : s.Inv) (hx : coreStep s = .next t) : t.Inv := by
  rcases coreStep_cases hx with ⟨-, -, rfl⟩ | ⟨-, blk, rest, hp, rfl⟩ | ⟨hr, hn, rfl⟩ | ⟨hr, ht, rfl⟩
  · exact h
  · refine ⟨h.pendShort, h.busyPhase, h.absorbOne, h.finalizingBusy, ?_, h.errCause, h.lenBound, h.fillOfLen, h.fillClosed, ?_⟩
    · intro _; simp [hp]
    · intro _; exact ⟨blk, rest, hp, rfl, rfl⟩
  · refine ⟨h.pendShort, h.busyPhase, h.absorbOne, h.finalizingBusy, h.runBusy, h.errCause, h.lenBound, h.fillOfLen,
      h.fillClosed, ?_⟩
    intro _
    obtain ⟨blk, rest, hp, hw, hv⟩ := h.running hr
    exact ⟨blk, rest, hp, hw, by simp only; rw [hv, hw, rounds_succ _ _ hn]⟩
  · obtain ⟨blk, rest, hp, -, -⟩ := h.running hr
    have hshort := h.pendShort
    have hbp := h.busyPhase (by simp [hp])
    have hpt : s.pend.tail = rest := by simp [hp]
    have hlen : rest.length ≤ 1 := by rw [hp] at hshort; simpa using hshort
    have habs : s.phase = .absorb → rest = [] := by
      intro ha
      have := h.absorbOne ha
      rw [hp] at this
      simpa using this
    rcases phaseAfterMix_cases s.phase rest with ⟨hre, hf, hph⟩ | ⟨hne, hph⟩
    · constructor <;> simp only [hpt, hph]
      · simp [hre]
      · simp [hre]
      · simp
      · simp
      · simp
      · exact h.errCause
      · exact h.lenBound
      · simp
      · intro _; exact h.fillClosed (by simp [hf])
      · simp
    · constructor <;> simp only [hpt, hph]
      · omega
      · exact fun _ => hbp
      · exact fun _ => hlen
      · intro hf hre; exact hne ⟨hre, hf⟩
      · simp
      · exact h.errCause
      · exact h.lenBound
      · exact h.fillOfLen
      · exact h.fillClosed
      · simp

/-! ### Agreement where something has been written (R47) -/

theorem State.AgreesWhereWritten.refl (s : State) : s.AgreesWhereWritten s :=
  ⟨rfl, fun _ => rfl, fun _ _ _ => rfl, fun _ => ⟨rfl, rfl, rfl⟩⟩

/-- The bytes that FINAL and ABSORB read are the same (R34). -/
theorem State.AgreesWhereWritten.partialBlock_eq {s s' : State} (h : s.AgreesWhereWritten s') :
    s'.partialBlock = s.partialBlock :=
  State.partialBlock_eq (by rw [h.others]) h.partialBlock

/-- What HOST sees, and whose turn it is, are the same. -/
theorem State.AgreesWhereWritten.status_turn {s s' : State} (h : s.AgreesWhereWritten s') :
    s'.status = s.status ∧ s'.turn = s.turn := by rw [h.others]; exact ⟨rfl, rfl⟩

theorem State.AgreesWhereWritten.respond {s s' : State} (h : s.AgreesWhereWritten s') (x : Word) :
    (s.respond x).AgreesWhereWritten (s'.respond x) :=
  ⟨by conv_lhs => rw [h.others]
      rfl, h.chain, h.partialBlock, h.running⟩

theorem State.AgreesWhereWritten.takeCommand {s s' : State} (h : s.AgreesWhereWritten s') :
    s.takeCommand.AgreesWhereWritten s'.takeCommand :=
  ⟨by conv_lhs => rw [h.others]
      rfl, h.chain, h.partialBlock, h.running⟩

theorem State.AgreesWhereWritten.returnResp {s s' : State} (h : s.AgreesWhereWritten s') :
    s.returnResp.AgreesWhereWritten s'.returnResp :=
  ⟨by conv_lhs => rw [h.others]
      rfl, h.chain, h.partialBlock, h.running⟩

theorem State.AgreesWhereWritten.raise {s s' : State} (h : s.AgreesWhereWritten s') (c : Cause) :
    (s.raise c).AgreesWhereWritten (s'.raise c) := by
  have he : s'.err = s.err := by rw [h.others]
  unfold State.raise
  rw [he]
  split <;> exact ⟨by conv_lhs => rw [h.others], h.chain, h.partialBlock, h.running⟩

end Sys2Proof.Machine
end

