-- ==== Sys2Proof/Laws/PerInstr.lean ====
section
/-!
SUPPORT. Facts about the commands as syntax, one lemma for each constructor of Instr (LAWS.json).
-/

namespace Sys2Proof.Laws.EncodedRow

/-- The encoder's word lies in a row of R85, and that row's command with the word's operands is the command encoded. -/
def Statement (i : Instr) : Prop :=
  i.wellFormed = true → ∃ r ∈ opcodeRows, r.matchesWord (encode i).cmd = true ∧ operandsOf r.op (encode i) = i

theorem nop : Statement .nop := fun _ => ⟨⟨.nop, 0x00000000, 0xFFFFFFFF⟩, by decide, by decide, rfl⟩

theorem init : Statement .init := fun _ => ⟨⟨.init, 0x00000001, 0xFFFFFFFF⟩, by decide, by decide, rfl⟩

theorem absorb (n1 : BitVec 2) (data : Word) : Statement (.absorb n1 data) := by
  intro _
  have h : ∀ n1 : BitVec 2, Row.matchesWord ⟨.absorb, 0x00000002, 0xFFFFFFCF⟩ (cmdWord 2 n1 0) = true ∧
      n1Field (cmdWord 2 n1 0) = n1 := by decide
  exact ⟨⟨.absorb, 0x00000002, 0xFFFFFFCF⟩, by decide, (h n1).1, congrArg (Instr.absorb · data) (h n1).2⟩

theorem final : Statement .final := fun _ => ⟨⟨.final, 0x00000003, 0xFFFFFFFF⟩, by decide, by decide, rfl⟩

theorem rddig (idx : BitVec 4) : Statement (.rddig idx) := by
  intro hw
  have h : ∀ idx : BitVec 4, idx.toNat < 8 →
      Row.matchesWord ⟨.rddig, 0x00000004, 0xFFFFF8FF⟩ (cmdWord 4 0 idx) = true ∧ idxField (cmdWord 4 0 idx) = idx := by
    decide
  have hi : idx.toNat < 8 := by simpa [Instr.wellFormed] using hw
  exact ⟨⟨.rddig, 0x00000004, 0xFFFFF8FF⟩, by decide, (h idx hi).1, congrArg Instr.rddig (h idx hi).2⟩

theorem rdhex (idx : BitVec 4) : Statement (.rdhex idx) := by
  intro _
  have h : ∀ idx : BitVec 4,
      Row.matchesWord ⟨.rdhex, 0x00000005, 0xFFFFF0FF⟩ (cmdWord 5 0 idx) = true ∧ idxField (cmdWord 5 0 idx) = idx := by
    decide
  exact ⟨⟨.rdhex, 0x00000005, 0xFFFFF0FF⟩, by decide, (h idx).1, congrArg Instr.rdhex (h idx).2⟩

theorem rdstat : Statement .rdstat := fun _ => ⟨⟨.rdstat, 0x00000006, 0xFFFFFFFF⟩, by decide, by decide, rfl⟩

end Sys2Proof.Laws.EncodedRow
end

