-- ==== Sys2Proof/Laws/Scheduler.lean ====
section
/-!
SUPPORT. The message scheduler (spec/42_scheduler.md R122): the words held newest first are the words of the schedule.
-/

namespace Sys2Proof.Machine

/-- Fewer words are the older part of more words. -/
theorem scheduleWords_drop (blk : Block) (n k : Nat) : (scheduleWords blk (n + k)).drop k = scheduleWords blk n := by
  induction k with
  | zero => simp
  | succ k ih => rw [show n + (k + 1) = (n + k) + 1 by omega, scheduleWords, List.drop_succ_cons, ih]

theorem schedule_getElem (blk : Block) (j : Nat) (h : j < 64) :
    (schedule blk)[j] = (scheduleWords blk 48)[63 - j]'(by rw [scheduleWords_length]; omega) := by
  have hl := scheduleWords_length blk 48
  simp [schedule, List.getElem_reverse, hl]

/-- Entry `k` of the words `W[0 .. 15+n]`, newest first, is `W[15+n-k]`. -/
theorem scheduleWords_getElem (blk : Block) {n k : Nat} (hn : n ≤ 48) (hk : k < 16 + n) :
    (scheduleWords blk n)[k]'(by rw [scheduleWords_length]; exact hk) = (schedule blk)[15 + n - k] := by
  rw [schedule_getElem]
  have h := scheduleWords_drop blk n (48 - n)
  have hl := scheduleWords_length blk 48
  have h48 : scheduleWords blk (n + (48 - n)) = scheduleWords blk 48 := by rw [show n + (48 - n) = 48 by omega]
  rw [h48] at h
  have e : (scheduleWords blk n)[k]'(by rw [scheduleWords_length]; exact hk) =
      ((scheduleWords blk 48).drop (48 - n))[k]'(by rw [List.length_drop, hl]; omega) := by
    congr 1; exact h.symm
  rw [e, List.getElem_drop]
  congr 1; omega

theorem scheduleWords_getD (blk : Block) {n k : Nat} (hn : n ≤ 48) (hk : k < 16 + n) :
    (scheduleWords blk n).getD k 0 = (schedule blk)[15 + n - k] := by
  rw [← scheduleWords_getElem blk hn hk]
  exact List.getD_eq_getElem _ _ (by rw [scheduleWords_length]; exact hk)

/-- The first 16 words are the block's (R122). -/
theorem schedule_of_lt (blk : Block) (j : Nat) (h : j < 16) : (schedule blk)[j] = blockWord blk ⟨j, h⟩ := by
  have h1 := scheduleWords_getElem blk (n := 0) (k := 15 - j) (by omega) (by omega)
  simp only [show 15 + 0 - (15 - j) = j by omega] at h1
  rw [← h1]
  simp only [scheduleWords, List.getElem_reverse, List.length_ofFn, List.getElem_ofFn]
  congr 1
  apply Fin.ext
  simp; omega

/-- Every later word follows the recurrence (R122). -/
theorem schedule_of_ge (blk : Block) (j : Nat) (h₁ : 16 ≤ j) (h₂ : j < 64) :
    (schedule blk)[j] = smallSigma1 (schedule blk)[j - 2] + (schedule blk)[j - 7] + smallSigma0 (schedule blk)[j - 15]
      + (schedule blk)[j - 16] := by
  obtain ⟨n, rfl⟩ : ∃ n, j = 16 + n := ⟨j - 16, by omega⟩
  have h0 := scheduleWords_getElem blk (n := n + 1) (k := 0) (by omega) (by omega)
  simp only [scheduleWords, List.getElem_cons_zero] at h0
  have e : (schedule blk)[16 + n] = nextScheduleWord (scheduleWords blk n) := by
    rw [h0]; congr 1; omega
  rw [e, nextScheduleWord, scheduleWords_getD blk (k := 1) (by omega) (by omega),
    scheduleWords_getD blk (k := 6) (by omega) (by omega), scheduleWords_getD blk (k := 14) (by omega) (by omega),
    scheduleWords_getD blk (k := 15) (by omega) (by omega)]
  simp only [show 15 + n - 1 = 16 + n - 2 by omega, show 15 + n - 6 = 16 + n - 7 by omega,
    show 15 + n - 14 = 16 + n - 15 by omega, show 15 + n - 15 = 16 + n - 16 by omega]

end Sys2Proof.Machine
end

