-- ==== Sys2Proof/Tests/Slice0.lean ====
section
/-!
SUPPORT. Small tests, each about one step or one function; the expected results are those of spec/95_test_vectors.md or are
written out from the rule the test names. After them, one witness for each statement with hypotheses: a concrete state and
operands that meet them together, with the boundary values of the ranges.
-/

namespace Sys2Proof.Tests

open Sys2Proof Sys2Proof.Machine

/-! ### Small states -/

/-- The bytes of "Mozart". -/
def mozart : List Byte := [0x4D, 0x6F, 0x7A, 0x61, 0x72, 0x74]

/-- `H` after hashing "Mozart" (95_test_vectors.md section 1, F3). -/
def mozartH : Words8 :=
  #v[0x439F59EA, 0x52ADA468, 0x73017CC5, 0x9979FB60, 0x13729828, 0xB1915428, 0x7290CA5B, 0x1AEE25A1]

/-- After reset and INIT (95_test_vectors.md section 6, "after INIT"). -/
def afterInit : State := { State.reset with chainH := iv, phase := .absorb }

/-- A message of `n` bytes 0x61 open, and nothing queued. -/
def openWith (n : Nat) : State :=
  { State.reset with
    chainH := iv, phase := .absorb, len := n, fill := Fin.ofNat 64 n,
    buf := Vector.ofFn fun i => if i.val < n then 0x61 else Config.resetBuf i }

/-- After `HASH "Mozart"`, where R218 leaves `len` as it was. -/
def afterHash : State := { State.reset with chainH := mozartH, phase := .done, len := 6 }

/-- A block of 64 bytes 0x61. -/
def blk : Block := Vector.replicate 64 0x61

/-- Message FINALIZING, `blks` queued, CORE not started. -/
def queued (blks : List Block) : State :=
  { State.reset with chainH := iv, phase := .finalizing, pend := blks }

/-- The head block `blk` running, `k` rounds done. -/
def runningAt (k : Fin 65) (rest : List Block) : State :=
  { queued (blk :: rest) with
    run := true, t := k, w := schedule blk, v := rounds iv (schedule blk) k.val }

/-- `s` with these commands still to present. -/
def presenting (s : State) (is : List Instr) : State := { s with port := is.map encode }

/-- The response and the STATUS after a command, where it goes on. -/
def answer (r : Result) : Option (Word × Word) :=
  match r with
  | .next t => some (t.resp, t.status)
  | _ => none

/-- One field of the state after a step, where it goes on. -/
def after {α : Type} (r : Result) (f : State → α) : Option α :=
  match r with
  | .next t => some (f t)
  | _ => none

/-- Dispatch a pair, with its response and STATUS. -/
def answerTo (cmd data : Word) (s : State) : Option (Word × Word) := answer (dispatchCommand ⟨cmd, data⟩ s)

/-! ### Well-formed terms (R80, R84, R86) -/

theorem test_rddig_7_wellFormed : (Instr.rddig 7).wellFormed = true := by decide

theorem test_rddig_8_refused : (Instr.rddig 8).wellFormed = false := by decide

theorem test_rddig_15_refused : (Instr.rddig 15).wellFormed = false := by decide

theorem test_rdhex_15_wellFormed : (Instr.rdhex 15).wellFormed = true := by decide

/-! ### Decoding, words written out from R85 bit by bit -/

theorem test_decode_nop : decode ⟨0b0000_0000_0000_0000_0000_0000_0000_0000, 0xDEADBEEF⟩ = .ok .nop := by rfl

theorem test_decode_init : decode ⟨0b0000_0000_0000_0000_0000_0000_0000_0001, 0⟩ = .ok .init := by rfl

theorem test_decode_absorb1 :
    decode ⟨0b0000_0000_0000_0000_0000_0000_0000_0010, 0x41000000⟩ = .ok (.absorb 0 0x41000000) := by rfl

theorem test_decode_absorb4 :
    decode ⟨0b0000_0000_0000_0000_0000_0000_0011_0010, 0x4D6F7A61⟩ = .ok (.absorb 3 0x4D6F7A61) := by rfl

theorem test_decode_final : decode ⟨0b0000_0000_0000_0000_0000_0000_0000_0011, 0⟩ = .ok .final := by rfl

theorem test_decode_rddig5 : decode ⟨0b0000_0000_0000_0000_0000_0101_0000_0100, 0⟩ = .ok (.rddig 5) := by rfl

theorem test_decode_rdhex10 : decode ⟨0b0000_0000_0000_0000_0000_1010_0000_0101, 0⟩ = .ok (.rdhex 10) := by rfl

theorem test_decode_rdstat : decode ⟨0b0000_0000_0000_0000_0000_0000_0000_0110, 0⟩ = .ok .rdstat := by rfl

/-- The illegal words of 95_test_vectors.md section 6, each with the clause of R86 that its note names. -/
theorem test_decode_illegal :
    decode ⟨0x00000007, 0⟩ = .error .reservedOpcode ∧ decode ⟨0x0000000F, 0⟩ = .error .reservedOpcode ∧
    decode ⟨0x00000010, 0⟩ = .error .unusedN1 ∧ decode ⟨0x00000042, 0⟩ = .error .reservedBits ∧
    decode ⟨0x00000102, 0⟩ = .error .unusedIdx ∧ decode ⟨0x00000804, 0⟩ = .error .rddigIndex ∧
    decode ⟨0x00001003, 0⟩ = .error .reservedBits ∧ decode ⟨0x80000006, 0⟩ = .error .reservedBits := by
  refine ⟨rfl, rfl, rfl, rfl, rfl, rfl, rfl, rfl⟩

/-- R89: the assembler's words. -/
theorem test_encode :
    encode (.absorb 1 0x72740000) = ⟨0x00000012, 0x72740000⟩ ∧ encode (.rddig 7) = ⟨0x00000704, 0⟩ ∧
      encode (.rdhex 15) = ⟨0x00000F05, 0⟩ ∧ encode .rdstat = ⟨0x00000006, 0⟩ := by
  refine ⟨rfl, rfl, rfl, rfl⟩

/-- DATA is bits 63..32 of a 64-bit row (log 11). -/
theorem test_decodeTableWord_absorb : decodeTableWord 64 0x4100000000000002 = some (.absorb 0 0x41000000) := by rfl

/-- `withFetchWord`: the very next step from reset runs the pair. -/
theorem test_withFetchWord_init : after (step (State.reset.withFetchWord 32 1)) State.phase = some .absorb := by rfl

/-! ### The datapath (95_test_vectors.md sections 2 to 5) -/

theorem test_smallSigmas :
    smallSigma0 0x12345678 = 0xE7FCE6EE ∧ smallSigma1 0x12345678 = 0xA1F78649 ∧
      smallSigma0 0x80000000 = 0x11002000 ∧ smallSigma1 0x80000000 = 0x00205000 := by decide

theorem test_bigSigmas :
    bigSigma0 0x6A09E667 = 0xCE20B47E ∧ bigSigma1 0x6A09E667 = 0x55B65510 ∧
      bigSigma0 0x510E527F = 0x7EF0E1A9 ∧ bigSigma1 0x510E527F = 0x3587272B := by decide

theorem test_ch_maj :
    ch 0x510E527F 0x9B05688C 0x1F83D9AB = 0x1F85C98C ∧ maj 0x510E527F 0x9B05688C 0x1F83D9AB = 0x1B0758AF ∧
      maj 0x6A09E667 0xBB67AE85 0x3C6EF372 = 0x3A6FE667 := by decide

/-- Rounds 0 and 1 of the empty message. -/
theorem test_two_rounds :
    round (round iv 0x428A2F98 0x80000000) 0x71374491 0 =
      #v[0x9CE564D0, 0x7C08884D, 0x6A09E667, 0xBB67AE85, 0x2001B256, 0x18C7E2A2, 0x510E527F, 0x9B05688C] := by decide

/-- Words of the schedule of the "Mozart" block: the last ones depend on all the rest. -/
theorem test_schedule_mozart :
    (blocks (pad mozart)).map (fun b => [(schedule b)[15], (schedule b)[16], (schedule b)[17], (schedule b)[63]]) =
      [[0x00000030, 0x7C19DFFE, 0x72928000, 0x46790AA5]] := by decide +kernel

/-- The wraparound vector: a block of bytes 0xFF. -/
theorem test_schedule_wraps :
    (schedule (Vector.replicate 64 0xFF))[16] = 0x203FFFFC ∧ (schedule (Vector.replicate 64 0xFF))[63] = 0x4BCEAF09 := by
  decide +kernel

/-- 55 bytes leave no zero and one block; 56 bytes spill. -/
theorem test_padTail_lengths :
    (padTail (List.replicate 55 0x61) 0x1B8).map (fun b => b.toList.drop 54) =
        [[0x61, 0x80, 0, 0, 0, 0, 0, 0, 0x01, 0xB8]] ∧
      (padTail (List.replicate 56 0x61) 0x1C0).map (fun b => b.toList.drop 55) =
        [[0x61, 0x80, 0, 0, 0, 0, 0, 0, 0], [0, 0, 0, 0, 0, 0, 0, 0x01, 0xC0]] := by decide +kernel

/-- The source's fixture F3. -/
theorem test_digest_mozart : digest mozart = digestBytes mozartH := by decide +kernel

theorem test_toHex : toHex [0xF0, 0x09, 0x0A] = [0x66, 0x30, 0x30, 0x39, 0x30, 0x61] := by decide

/-! ### The commands (95_test_vectors.md section 6): at most two steps of each -/

theorem test_nop : answerTo 0x00000000 0xDEADBEEF afterInit = some (0x00000000, 0x00000004) := by decide

theorem test_init_from_reset : answerTo 0x00000001 0 State.reset = some (0x00000000, 0x00000004) := by decide

theorem test_init_clears_done : answerTo 0x00000001 0 afterHash = some (0x00000000, 0x00000004) := by decide

/-- R214's corner case: `fill = 62`, `N = 4`: the block is queued and two bytes begin the next. -/
theorem test_absorb_across_the_boundary :
    after (exec (.absorb 3 0xA1A2A3A4) (openWith 62)) (fun t => (t.fill.val, t.len)) = some (2, 66) ∧
      after (exec (.absorb 3 0xA1A2A3A4) (openWith 62)) (fun t => t.pend.map (fun b => b.toList.drop 61)) =
        some [[0x61, 0xA1, 0xA2]] ∧
      after (exec (.absorb 3 0xA1A2A3A4) (openWith 62)) (fun t => t.buf.toList.take 3) =
        some [0xA3, 0xA4, 0x61] := by decide +kernel

/-- LEN_OVF at the bound: `len = 2^61 - 2` takes one byte more, and not two. -/
theorem test_absorb_at_the_length_bound :
    answerTo 0x00000002 0x41424344 { openWith 62 with len := 2 ^ 61 - 2 } = some (0, 0x000003F4) ∧
      answerTo 0x00000012 0x41424344 { openWith 62 with len := 2 ^ 61 - 2 } = some (0, 0x000703E4) := by decide +kernel

theorem test_final_after_init : answerTo 0x00000003 0 afterInit = some (0x00000000, 0x00000009) := by decide +kernel

theorem test_final_spills :
    after (exec .final (openWith 56)) (fun t => (t.pend.length, t.status)) = some (2, 0x00000009) := by decide +kernel

theorem test_rddig : answerTo 0x00000704 0 afterHash = some (0x1AEE25A1, 0x0000000E) := by decide

theorem test_rddig_too_early : answerTo 0x00000004 0 afterInit = some (0x00000000, 0x00050004) := by decide

theorem test_rdhex : answerTo 0x00000F05 0 afterHash = some (0x32356131, 0x0000000E) := by decide +kernel

theorem test_rdhex_0 : answerTo 0x00000005 0 afterHash = some (0x34333966, 0x0000000E) := by decide +kernel

theorem test_rdstat : answerTo 0x00000006 0 afterHash = some (0x0000000E, 0x0000000E) := by decide

theorem test_illegal_word_in_done : answerTo 0x00000072 0 afterHash = some (0x00000000, 0x0003000E) := by decide

/-- The first cause wins: a SEQ_ERR after an ILLEGAL_CMD leaves CAUSE 1. -/
theorem test_sticky_cause :
    answerTo 0x00000004 0 { afterInit with err := true, cause := .illegalCmd } = some (0, 0x00030004) := by decide

/-! ### CORE, the port and reset -/

theorem test_cstart :
    after (coreStep (queued [blk])) (fun t => (t.run, t.t)) = some (true, 0) ∧
      after (coreStep (queued [blk])) (fun t => (t.v, t.pend)) = some (iv, [blk]) := by decide +kernel

theorem test_cmix_ends_the_message :
    after (coreStep { runningAt 64 [] with v := Vector.replicate 8 1 }) (fun t => (t.chainH, t.status)) =
      some (#v[0x6A09E668, 0xBB67AE86, 0x3C6EF373, 0xA54FF53B, 0x510E5280, 0x9B05688D, 0x1F83D9AC, 0x5BE0CD1A],
        0x0000000E) := by decide +kernel

/-- Busy hold: RDSTAT and NOP are accepted, INIT and an illegal word are held. -/
theorem test_hold :
    (queued [blk]).accepts ⟨6, 0⟩ = true ∧ (queued [blk]).accepts ⟨0, 0⟩ = true ∧
      (queued [blk]).accepts ⟨1, 0⟩ = false ∧ (queued [blk]).accepts ⟨7, 0⟩ = false := by decide

theorem test_reset_drops_the_held_command :
    after (step { presenting (runningAt 3 []) [.init, .rdstat] with resetPin := true })
        (fun t => (t.port, t.status)) = some ([encode .rdstat], 0x00000000) ∧
      after (step { presenting (runningAt 3 []) [.init, .rdstat] with resetPin := true })
        (fun t => (t.run, t.pend)) = some (false, []) := by decide +kernel

/-! ### Witnesses: the hypotheses of each statement, met together -/

theorem witness_DecodeOfEncodeIsTheCommand : (Instr.rddig 7).wellFormed = true ∧ (Instr.absorb 3 0xFFFFFFFF).wellFormed = true := by
  decide

theorem witness_EncodeOfDecodeIsTheWord :
    decode ⟨0x00000032, 0xFFFFFFFF⟩ = .ok (.absorb 3 0xFFFFFFFF) ∧ decode ⟨0x00000F05, 0xFFFFFFFF⟩ = .ok (.rdhex 15) :=
  ⟨rfl, rfl⟩

theorem witness_DecodeFollowsTheMatchMaskTable :
    (⟨.absorb, 0x00000002, 0xFFFFFFCF⟩ : Row) ∈ opcodeRows ∧
      (⟨.absorb, 0x00000002, 0xFFFFFFCF⟩ : Row).matchesWord 0x00000032 = true := by decide

theorem witness_ImmediatesAreUnsignedFields :
    decode ⟨0x00000032, 0⟩ = .ok (.absorb 3 0) ∧ decode ⟨0x00000704, 0⟩ = .ok (.rddig 7) ∧
      decode ⟨0x00000F05, 0⟩ = .ok (.rdhex 15) ∧ afterHash.phase = .done ∧ afterHash.chainH = mozartH :=
  ⟨rfl, rfl, rfl, rfl, rfl⟩

theorem witness_IllegalWordsAreExactlyTheListed :
    decode ⟨0x00000804, 0⟩ = .error .rddigIndex ∧ decode ⟨0x00000007, 0⟩ = .error .reservedOpcode := ⟨rfl, rfl⟩

theorem witness_DataIsOnlyTheTopLanesOfAbsorb :
    decode ⟨0x00000007, 0⟩ = .error .reservedOpcode ∧ (0x00000F05 : Word).extractLsb 3 0 ≠ 2 ∧
      ∀ k, k ≤ (0 : BitVec 2).toNat → (0x41000000 : Word).extractLsb' (24 - 8 * k) 8 = (0x41FFFFFF : Word).extractLsb' (24 - 8 * k) 8 := by
  refine ⟨rfl, by decide, ?_⟩
  intro k hk
  obtain rfl : k = 0 := by simpa using hk
  decide

/-- Bit 31, where a shift brings in a zero and a rotation does not, and bit 0. -/
theorem witness_SigmasAtTheEdgeBits :
    (31 < 32 ∧ (smallSigma0 0x80000000).getLsbD 31 = false ∧ (smallSigma0 0x80000000).getLsbD 28 = true) ∧
      (0 < 32 ∧ (bigSigma0 0x00000004).getLsbD 0 = true) := by decide

theorem witness_ScheduleFollowsTheRecurrence :
    (15 < 16 ∧ 16 ≤ 16 ∧ 16 ≤ 63 ∧ 63 < 64) ∧ blockAt (pad mozart) 0 ∈ blocks (pad mozart) := by
  refine ⟨by decide, ?_⟩
  decide +kernel

/-- `bigSigma1 e = 1` is met by one word only. -/
theorem witness_RoundRenamesAndAddsT1T2 : bigSigma1 0x6AB84F6C = 1 ∧ ch 0x6AB84F6C 1 1 = 1 := by decide

theorem witness_MixAddsWordByWord : iv[0] = 0x6A09E667 ∧ (iv.set 0 0x79A6DDDB)[0] = 0x79A6DDDB := by decide

theorem witness_CompressIsSixtyFourRoundsThenMix : blockAt (pad []) 0 ∈ blocks (pad []) := by decide +kernel

theorem witness_PadIsMessageMarkerZerosLength :
    ((List.replicate 55 (0x61 : Byte)).length ≤ 2 ^ 61 - 1 ∧ (List.replicate 55 (0x61 : Byte)).length % 64 = 55) ∧
      ((List.replicate 56 (0x61 : Byte)).length ≤ 2 ^ 61 - 1 ∧ (List.replicate 56 (0x61 : Byte)).length % 64 = 56) := by
  decide

theorem witness_PaddedLengthGivesTheBlockCount :
    (List.replicate 119 (0x61 : Byte)).length % 64 ≤ 55 ∧ 56 ≤ (List.replicate 120 (0x61 : Byte)).length % 64 := by decide

theorem witness_PadTailIsOneOrTwoBlocks :
    (List.replicate 55 (0x61 : Byte)).length ≤ 55 ∧
      56 ≤ (List.replicate 56 (0x61 : Byte)).length ∧ (List.replicate 63 (0x61 : Byte)).length < 64 := by decide

theorem witness_FullBlocksThenTailAreThePaddedBlocks : (List.replicate 64 (0x61 : Byte)).length ≤ 2 ^ 61 - 1 := by decide

theorem witness_DigestBytesAreBigEndian : (mozartH.set 0 0xE3B0C442)[0] = 0xE3B0C442 := by decide

theorem witness_HexIsTwoLowercaseDigitsPerByte :
    (9 : BitVec 4).toNat ≤ 9 ∧ 10 ≤ (10 : BitVec 4).toNat ∧ ([0xA5] : List Byte)[0]? = some 0xA5 := by decide

theorem witness_HexCharacterComesFromItsNibble :
    63 < 64 ∧ (toHex (digestBytes mozartH))[63]? = some 0x31 := by decide +kernel

theorem witness_InitStartsAMessage :
    (7 : BitVec 4).toNat < 8 ∧ ({ afterHash with err := true, cause := .seqErr } : State).err = true ∧
      ∃ t, exec .init { afterHash with err := true, cause := .seqErr } = .next t ∧ t.err = false :=
  ⟨by decide, rfl, _, rfl, rfl⟩

/-- The three cases of ABSORB: the bytes fit (up to the last one allowed), the wrong phase, and one byte too many. -/
theorem witness_AbsorbTakesItsBytesInOrder :
    ((openWith 62).phase = .absorb ∧ (openWith 62).len + ((3 : BitVec 2).toNat + 1) ≤ 2 ^ 61 - 1 ∧
      64 ≤ (openWith 62).fill.val + ((3 : BitVec 2).toNat + 1)) ∧
    (({ openWith 62 with len := 2 ^ 61 - 2 } : State).len + ((0 : BitVec 2).toNat + 1) ≤ 2 ^ 61 - 1 ∧
      ({ openWith 62 with len := 2 ^ 61 - 2 } : State).fill.val + ((0 : BitVec 2).toNat + 1) < 64) ∧
    State.reset.phase ≠ .absorb ∧
    ((openWith 62).phase = .absorb ∧
      ({ openWith 62 with len := 2 ^ 61 - 1 } : State).len + ((0 : BitVec 2).toNat + 1) > 2 ^ 61 - 1) :=
  ⟨⟨rfl, by decide, by decide⟩, ⟨by decide, by decide⟩, by decide, rfl, by decide⟩

/-- 55 and 56 bytes, one and two blocks. -/
theorem witness_FinalQueuesThePaddedTail :
    ((List.replicate 55 (0x61 : Byte)).length = (openWith 55).fill.val ∧
      (∀ i : Fin 64, i.val < (openWith 55).fill.val →
        (List.replicate 55 (0x61 : Byte))[i.val]? = some (openWith 55).buf[i.val]) ∧ (openWith 55).phase = .absorb) ∧
    ((List.replicate 56 (0x61 : Byte)).length = (openWith 56).fill.val ∧
      (∀ i : Fin 64, i.val < (openWith 56).fill.val →
        (List.replicate 56 (0x61 : Byte))[i.val]? = some (openWith 56).buf[i.val]) ∧ (openWith 56).phase = .absorb) ∧
    afterHash.phase ≠ .absorb := by decide +kernel

theorem witness_RddigReadsADigestWord :
    afterHash.phase = .done ∧ afterInit.phase ≠ .done ∧
      (decode ⟨0x00000704, 0⟩ = .ok (.rddig 7) ∧ (queued [blk]).busy = true) := ⟨rfl, by decide, rfl, rfl⟩

theorem witness_RdhexReadsFourCharacters :
    afterHash.phase = .done ∧ State.reset.phase ≠ .done := ⟨rfl, by decide⟩

theorem witness_EveryAcceptedCommandAnswersOnce :
    (∃ t, hostStep ⟨6, 0⟩ afterHash = .next t) ∧ (∃ t, dispatchCommand ⟨0x00000704, 0⟩ afterHash = .next t) ∧
      (∃ t, dispatchCommand ⟨0x00000F05, 0⟩ afterInit = .next t) ∧ (∃ t, countedCoreStep (queued [blk]) = .next t) :=
  ⟨⟨_, rfl⟩, ⟨_, rfl⟩, ⟨_, rfl⟩, ⟨_, rfl⟩⟩

theorem witness_RaiseRecordsTheFirstCause :
    (Cause.lenOvf ≠ .noError ∧ (afterInit.err = true ↔ afterInit.cause ≠ .noError)) ∧
      dispatchCommand ⟨7, 0⟩ afterInit.takeCommand = .next (afterInit.takeCommand.raise .illegalCmd) ∧
      ∃ t, exec (.absorb 0 0x41000000) { afterInit with err := true, cause := .seqErr } = .next t :=
  ⟨by decide, rfl, _, rfl⟩

theorem witness_WrongPhaseRaisesSeqErr :
    afterInit.phase ≠ .done ∧ (7 : BitVec 4).toNat < 8 ∧ afterHash.phase ≠ .absorb ∧
      ∃ t, exec .final afterHash = .next t ∧ t.cause = .seqErr ∧ t.cause ≠ afterHash.cause :=
  ⟨by decide, by decide, by decide, _, rfl, rfl, by decide⟩

theorem witness_OverlongAbsorbRaisesLenOvf :
    (openWith 62).phase = .absorb ∧
      ({ openWith 62 with len := 2 ^ 61 - 2 } : State).len + ((1 : BitVec 2).toNat + 1) > 2 ^ 61 - 1 ∧
      ∃ t, exec (.absorb 1 0) { openWith 62 with len := 2 ^ 61 - 2 } = .next t ∧ t.cause = .lenOvf ∧
        ({ openWith 62 with len := 2 ^ 61 - 2 } : State).cause ≠ .lenOvf :=
  ⟨rfl, by decide, _, rfl, rfl, by decide⟩

theorem witness_CausesArePrioritised :
    afterHash.err = false ∧ decode ⟨0x00000072, 0⟩ = .error .reservedBits ∧ afterHash.phase ≠ .absorb ∧
      ({ afterHash with len := 2 ^ 61 - 1 } : State).len + ((0 : BitVec 2).toNat + 1) > 2 ^ 61 - 1 :=
  ⟨rfl, rfl, by decide, by decide⟩

/-- After reset nothing is held and nothing is absent that a rule could read. -/
theorem witness_reset_inv : State.reset.Inv := by
  constructor <;> simp [Config.maxMsgBytes]

/-- Two blocks queued and the first one running, no round done: the longest wait. -/
theorem witness_running_inv : (runningAt 0 [blk]).Inv where
  pendShort := by decide
  busyPhase := fun _ => .inr rfl
  absorbOne := by decide
  finalizingBusy := by decide
  runBusy := by decide
  errCause := by decide
  lenBound := by decide
  fillOfLen := by decide
  fillClosed := by decide
  running := fun _ => ⟨blk, [blk], rfl, rfl, rfl⟩

theorem witness_CommandsRaiseOnlyTheirCauses :
    State.reset.Inv ∧ State.reset.accepts ⟨3, 0⟩ = true ∧ State.reset.err = false ∧
      ∃ t, dispatchCommand ⟨3, 0⟩ State.reset = .next t ∧ t.err = true :=
  ⟨witness_reset_inv, rfl, rfl, _, rfl, rfl⟩

theorem witness_ReadCommandsLeaveTheRestUnchanged :
    (∃ t, exec (.rddig 7) afterHash = .next t) ∧ (∃ t, exec (.rdhex 15) afterInit = .next t) ∧
      (∃ t, exec .rdstat (queued [blk]) = .next t) ∧ afterHash.phase = .done ∧ (Instr.rddig 7).wellFormed = true :=
  ⟨⟨_, rfl⟩, ⟨_, rfl⟩, ⟨_, rfl⟩, rfl, rfl⟩

theorem witness_MessageCommandsLeaveTheRestUnchanged :
    (∃ t, exec .init afterHash = .next t) ∧ (∃ t, exec (.absorb 0 0) State.reset = .next t) ∧
      (∃ t, exec .final afterInit = .next t) := ⟨⟨_, rfl⟩, ⟨_, rfl⟩, ⟨_, rfl⟩⟩

theorem witness_CstartLoadsTheHeadBlock : (queued [blk]).run = false ∧ (queued [blk]).pend = blk :: [] := ⟨rfl, rfl⟩

/-- The last round, and the step after it. -/
theorem witness_CroundDoesRoundT :
    ((runningAt 63 []).run = true ∧ (runningAt 63 []).t.val < 64) ∧
    ((runningAt 64 []).run = true ∧ (runningAt 64 []).t.val = 64 ∧ (∃ t, coreStep (runningAt 64 []) = .next t)) :=
  ⟨⟨rfl, by decide⟩, rfl, rfl, _, rfl⟩

/-- The last block of a message, and a block with another behind it. -/
theorem witness_CmixRetiresTheHeadBlock :
    ((runningAt 64 []).run = true ∧ (runningAt 64 []).t = 64 ∧ (runningAt 64 []).pend = blk :: [] ∧
      (runningAt 64 []).phase = .finalizing) ∧
    (runningAt 64 [blk]).pend = blk :: [blk] := ⟨⟨rfl, rfl, rfl, rfl⟩, rfl⟩

theorem witness_SixtySixCoreStepsCompressOneBlock :
    (queued [blk, blk]).run = false ∧ (queued [blk, blk]).pend = blk :: [blk] := ⟨rfl, rfl⟩

theorem witness_CoreEmptiesTheQueueWithin132Steps : (runningAt 0 [blk]).Inv ∧ (runningAt 0 [blk]).pend.length = 2 :=
  ⟨witness_running_inv, rfl⟩

theorem witness_CoreStepsLeaveTheRestUnchanged :
    (∃ t, coreStep (queued [blk]) = .next t) ∧ (∃ t, coreStep State.reset = .next t) := ⟨⟨_, rfl⟩, ⟨_, rfl⟩⟩

/-- Where CORE has no step; where it has one, the turn rests on `Config.hostTurns`, which nothing can evaluate. -/
theorem witness_StepExecutesTheAcceptedCommand :
    (presenting State.reset [.init]).resetPin = false ∧ (presenting State.reset [.init]).port = encode .init :: [] ∧
      decode (encode .init) = .ok .init ∧ (presenting State.reset [.init]).busy = false ∧
      (presenting State.reset [.init]).run = false := ⟨rfl, rfl, rfl, rfl, rfl⟩

theorem witness_StepRaisesIllegalCmd :
    decode ⟨7, 0⟩ = .error .reservedOpcode ∧
      (({ queued [blk] with port := [⟨7, 0⟩] } : State).resetPin = false ∧
        ({ queued [blk] with port := [⟨7, 0⟩] } : State).busy = true) ∧
      (({ afterInit with port := [⟨7, 0⟩] } : State).resetPin = false ∧
        ({ afterInit with port := [⟨7, 0⟩] } : State).busy = false ∧
        ({ afterInit with port := [⟨7, 0⟩] } : State).run = false) := ⟨rfl, ⟨rfl, rfl⟩, rfl, rfl, rfl⟩

theorem witness_HeldCommandsWaitForCore :
    (presenting (runningAt 0 [blk]) [.init]).Inv ∧ (presenting (runningAt 0 [blk]) [.init]).resetPin = false ∧
      (presenting (runningAt 0 [blk]) [.init]).port = encode .init :: [] ∧
      (presenting (runningAt 0 [blk]) [.init]).accepts (encode .init) = false ∧
      decode ⟨7, 0⟩ = .error .reservedOpcode ∧ afterInit.accepts ⟨7, 0⟩ = true ∧
      ∃ t, step (presenting (runningAt 0 [blk]) [.init]) = .next t := by
  refine ⟨⟨by decide, fun _ => .inr rfl, by decide, by decide, by decide, by decide,
    by decide, by decide, by decide,
    fun _ => ⟨blk, [blk], rfl, rfl, rfl⟩⟩, rfl, rfl, rfl, rfl, rfl, _, rfl⟩

theorem witness_ResetSetsEverySpecifiedElement :
    ({ presenting (runningAt 3 []) [.init] with resetPin := true } : State).resetPin = true ∧
      (presenting (runningAt 3 []) [.init]).port = encode .init :: [] ∧
      ({ presenting (runningAt 3 []) [.init] with resetPin := true } : State).accepts (encode .init) = false :=
  ⟨rfl, rfl, rfl⟩

/-- One of the four that raise, then a legal pair and an illegal one that are not INIT. -/
theorem witness_AfterResetOnlyInitOpensAMessage :
    ((Instr.rddig 7).wellFormed = true ∧ (Instr.rddig 7) ≠ .nop ∧ (Instr.rddig 7) ≠ .init ∧ (Instr.rddig 7) ≠ .rdstat) ∧
      decode ⟨6, 0⟩ ≠ .ok .init ∧ decode ⟨7, 0⟩ ≠ .ok .init := by
  decide

/-- Each of the four ways in which `phase` changes. -/
theorem witness_PhaseChangesOnlyAsListed :
    (∃ t, step { afterHash with resetPin := true } = .next t ∧ t.phase ≠ afterHash.phase) ∧
      (∃ t, step (presenting State.reset [.init]) = .next t ∧ t.phase ≠ State.reset.phase) ∧
      (∃ t, step (presenting afterInit [.final]) = .next t ∧ t.phase ≠ afterInit.phase) ∧
      (∃ t, step (runningAt 64 []) = .next t ∧ t.phase ≠ (runningAt 64 []).phase) :=
  ⟨⟨_, rfl, by decide⟩, ⟨_, rfl, by decide⟩, ⟨_, rfl, by decide⟩, ⟨_, rfl, by decide⟩⟩

/-- A message one byte short of the longest. -/
def nearlyFull : State := { afterInit with len := 2 ^ 61 - 2 }

/-- The change of `len`, an ABSORB of the last byte that fits, one of a byte too many, one in the wrong phase, INIT and reset. -/
theorem witness_LenCountsAbsorbedBytes :
    (∃ t, step (presenting afterInit [.absorb 3 0]) = .next t ∧ t.len ≠ afterInit.len) ∧
      (∃ t, step (presenting nearlyFull [.absorb 0 0]) = .next t ∧
        Accepted (.absorb 0 0) (presenting nearlyFull [.absorb 0 0]) t ∧ nearlyFull.phase = .absorb ∧
        nearlyFull.len + ((0 : BitVec 2).toNat + 1) ≤ 2 ^ 61 - 1) ∧
      (∃ t, step (presenting nearlyFull [.absorb 1 0]) = .next t ∧
        Accepted (.absorb 1 0) (presenting nearlyFull [.absorb 1 0]) t ∧ nearlyFull.phase = .absorb ∧
        nearlyFull.len + ((1 : BitVec 2).toNat + 1) > 2 ^ 61 - 1) ∧
      (∃ t, step (presenting afterHash [.absorb 1 0]) = .next t ∧
        Accepted (.absorb 1 0) (presenting afterHash [.absorb 1 0]) t ∧ afterHash.phase ≠ .absorb) ∧
      (∃ t, step (presenting afterHash [.init]) = .next t ∧ Accepted .init (presenting afterHash [.init]) t ∧
        t.len ≠ afterHash.len) ∧
      (∃ t, step { afterHash with resetPin := true } = .next t ∧ t.len ≠ afterHash.len) ∧ afterInit.len ≤ 2 ^ 61 - 1 :=
  ⟨⟨_, rfl, by decide⟩, ⟨_, rfl, ⟨rfl, _, _, rfl, rfl, rfl⟩, rfl, by decide⟩,
    ⟨_, rfl, ⟨rfl, _, _, rfl, rfl, rfl⟩, rfl, by decide⟩, ⟨_, rfl, ⟨rfl, _, _, rfl, rfl, rfl⟩, by decide⟩,
    ⟨_, rfl, ⟨rfl, _, _, rfl, rfl, rfl⟩, by decide⟩, ⟨_, rfl, by decide⟩, by decide⟩

theorem witness_ErrorStaysUntilInitOrReset :
    (∃ t, step (presenting { afterInit with err := true, cause := .seqErr } [.nop]) = .next t) ∧
      (∃ t, step (presenting { afterInit with err := true, cause := .seqErr } [.init]) = .next t) ∧
      ({ afterInit with err := true, cause := .seqErr } : State).err = true := ⟨⟨_, rfl⟩, ⟨_, rfl⟩, rfl⟩

theorem witness_ChainingStateIsHiddenUntilDone :
    afterInit.phase ≠ .done ∧ ∃ t, exec (.rddig 0) afterInit = .next t := ⟨by decide, _, rfl⟩

theorem witness_StepKeepsTheInvariant : (runningAt 0 [blk]).Inv ∧ ∃ t, step (runningAt 0 [blk]) = .next t :=
  ⟨witness_running_inv, _, rfl⟩

/-- A step of a running block, and one of a machine whose `H`, `buf`, `t`, `v` and `W` nothing has written. -/
theorem witness_NoStepReadsAnUnwrittenElement :
    ((runningAt 0 [blk]).Inv ∧ (runningAt 0 [blk]).AgreesWhereWritten { runningAt 0 [blk] with buf := blk } ∧
      ∃ t, step (runningAt 0 [blk]) = .next t) ∧
    ((presenting State.reset [.init]).Inv ∧ (presenting State.reset [.init]).AgreesWhereWritten
        { presenting State.reset [.init] with chainH := iv, buf := blk, t := 7, v := iv, w := schedule blk } ∧
      ∃ t, step (presenting State.reset [.init]) = .next t) := by
  refine ⟨⟨witness_running_inv, ⟨rfl, fun _ => rfl, fun _ _ h => absurd h (Nat.not_lt_zero _), fun _ => ⟨rfl, rfl, rfl⟩⟩, _, rfl⟩,
    ⟨by constructor <;> simp [presenting, Config.maxMsgBytes], ⟨rfl, fun h => absurd rfl h, fun _ _ h => absurd h (Nat.not_lt_zero _),
      fun h => nomatch h⟩, _, rfl⟩⟩

/-- INIT and ABSORB from reset: two words returned, with any values in the unwritten elements. -/
theorem witness_ResetValuesAreNeverSeen :
    after (stepN 2 (presenting State.reset [.init, .absorb 0 0])) (fun t => (t.returned, t.status)) = some ([0, 0], 0x00000014) := by
  decide +kernel

/-- Two bytes in the last word. -/
theorem witness_MsgCarriesTheMessage : (msg mozart)[1]? = some (1, 0x72740000) ∧ 3 < 4 := by decide

/-- "Mozart" as 4 + 2 bytes, from reset, read as hex and as words. -/
theorem witness_HashCommandsComputeTheHash :
    (∃ s : State, s.Inv ∧ s.busy = false ∧ s.resetPin = false ∧
      (messageOf [(3, 0x4D6F7A61), (1, 0x72740000)]).length ≤ 2 ^ 61 - 1 ∧
      s.port = hashProgram [(3, 0x4D6F7A61), (1, 0x72740000)] rdhexAll) ∧
    (∃ s : State, s.Inv ∧ s.busy = false ∧ s.resetPin = false ∧
      s.port = hashProgram [(3, 0x4D6F7A61), (1, 0x72740000)] rddigAll) ∧
    messageOf [(3, 0x4D6F7A61), (1, 0x72740000)] = mozart := by
  refine ⟨⟨{ State.reset with port := hashProgram [(3, 0x4D6F7A61), (1, 0x72740000)] rdhexAll }, ?_, rfl, rfl, by decide, rfl⟩,
    ⟨{ State.reset with port := hashProgram [(3, 0x4D6F7A61), (1, 0x72740000)] rddigAll }, ?_, rfl, rfl, rfl⟩, by decide⟩ <;>
  constructor <;> simp [Config.maxMsgBytes]

end Sys2Proof.Tests
end

section
/-!
PROOFS. The invariant of the machine along its steps: reset meets it and every step keeps it (spec/10_state.md R30-R42).
-/

namespace Sys2Proof.Machine

theorem State.reset_inv : State.reset.Inv := by
  constructor <;> simp [Config.maxMsgBytes]

/-- Reset gives every state the elements of `State.reset` (R300), and the invariant reads no other field. -/
theorem State.applyReset_inv (s : State) : s.applyReset.Inv :=
  State.reset_inv.congr rfl rfl rfl rfl rfl rfl rfl rfl rfl rfl rfl

/-- While BUSY = 1 only NOP and RDSTAT are accepted (R200). -/
theorem State.accepts_of_ok {s : State} {c : Command} {i : Instr} (ha : s.accepts c = true) (hd : decode c = .ok i) :
    s.pend = [] ∨ i = .nop ∨ i = .rdstat := by
  simpa [s.accepts_iff, s.busy_false_iff, hd] using ha

theorem State.Inv.step {s t : State} (h : s.Inv) (hx : step s = .next t) : t.Inv := by
  rcases step_cases hx with ⟨-, rfl⟩ | ⟨c, rest, e, -, -, -, -, rfl⟩ | ⟨c, rest, i, u, -, -, ha, hd, hu, rfl⟩ |
    ⟨-, -, u, hu, rfl⟩ | ⟨-, -, rfl⟩
  · exact s.applyReset_inv
  · exact (h.takeCommand.raise (by simp)).returnResp
  · exact (h.takeCommand.exec (State.accepts_of_ok ha hd) hu).returnResp
  · exact (h.coreStep hu).congr rfl rfl rfl rfl rfl rfl rfl rfl rfl rfl rfl
  · exact h

/-- Settles O55. -/
theorem resetSatisfiesTheInvariant : Obligations.ResetSatisfiesTheInvariant :=
  State.reset_inv

/-- Settles O56. The cases are those of `step_cases`; commands and CORE steps are `State.Inv.exec` and `State.Inv.coreStep`. -/
theorem stepKeepsTheInvariant : Obligations.StepKeepsTheInvariant :=
  fun _ _ h hx => h.step hx

end Sys2Proof.Machine
end

section
/-!
PROOFS. No step reads an element that nothing has written (spec/10_state.md R47): agreement where something has been written is kept by the
intake, by every command, by every CORE step and so by every step.
-/

namespace Sys2Proof.Machine

/-- The second state is the first with other values of the five elements; with it in this form, `others` holds by computation. -/
theorem State.AgreesWhereWritten.eq_update {s s' : State} (h : s.AgreesWhereWritten s') :
    ∃ hh b k v w, s' = { s with chainH := hh, buf := b, t := k, v := v, w := w } :=
  ⟨_, _, _, _, _, h.others⟩

/-- Where the partial block is empty, `buf` may hold anything (R34). -/
theorem buf_agrees_of_fill_zero {s s' : State} (hf : s.fill = 0) (i : Nat) (h64 : i < 64) (hi : i < s.fill.val) :
    s'.buf[i] = s.buf[i] :=
  absurd hi (by simp [hf])

/-! ### The intake (R214) -/

/-- A byte put at `fill` agrees there, and below it the valid bytes did. -/
theorem State.AgreesWhereWritten.putByte_buf {s s' : State} (h : s.AgreesWhereWritten s') (b : Byte) {i : Nat}
    (h64 : i < 64) (hi : i ≤ s.fill.val) : (s'.putByte b).buf[i] = (s.putByte b).buf[i] := by
  have hf : s'.fill = s.fill := by rw [h.others]
  simp only [State.putByte_buf, Vector.getElem_set, hf]
  by_cases hif : s.fill.val = i
  · rw [if_pos hif, if_pos hif]
  · rw [if_neg hif, if_neg hif, h.partialBlock i h64 (by omega)]

theorem State.AgreesWhereWritten.absorbByte {s s' : State} (h : s.AgreesWhereWritten s') (b : Byte) :
    (absorbByte b s).AgreesWhereWritten (absorbByte b s') := by
  obtain ⟨_, _, _, _, _, rfl⟩ := h.eq_update
  by_cases hlt : s.fill.val + 1 < 64
  · simp only [Machine.absorbByte, dif_pos hlt]
    exact ⟨rfl, h.chain, fun i h64 hi => h.putByte_buf b h64 (Nat.le_of_lt_succ hi), h.running⟩
  · simp only [Machine.absorbByte, dif_neg hlt]
    rw [Vector.ext fun i h64 => h.putByte_buf b h64 (by omega)]
    exact ⟨rfl, h.chain, buf_agrees_of_fill_zero rfl, h.running⟩

theorem State.AgreesWhereWritten.absorbBytes {s s' : State} (h : s.AgreesWhereWritten s') (bs : List Byte) :
    (absorbBytes bs s).AgreesWhereWritten (absorbBytes bs s') := by
  induction bs generalizing s s' with
  | nil => exact h
  | cons b bs ih => exact ih (h.absorbByte b)

/-! ### The commands -/

theorem State.AgreesWhereWritten.execInit {s s' t : State} (h : s.AgreesWhereWritten s') (hx : execInit s = .next t) :
    ∃ t', execInit s' = .next t' ∧ t.AgreesWhereWritten t' := by
  obtain rfl := Host.Outcome.next.inj hx
  obtain ⟨_, _, _, _, _, rfl⟩ := h.eq_update
  exact ⟨_, rfl, rfl, fun _ => rfl, buf_agrees_of_fill_zero rfl, h.running⟩

theorem State.AgreesWhereWritten.execAbsorb {s s' t : State} {n1 : BitVec 2} {data : Word} (h : s.AgreesWhereWritten s')
    (hx : execAbsorb n1 data s = .next t) : ∃ t', execAbsorb n1 data s' = .next t' ∧ t.AgreesWhereWritten t' := by
  have hph : s'.phase = s.phase := by rw [h.others]
  have hlen : s'.len = s.len := by rw [h.others]
  rcases execAbsorb_cases hx with ⟨hp, rfl⟩ | ⟨hp, hl, rfl⟩ | ⟨hp, hl, rfl⟩
  · exact ⟨_, execAbsorb_of_wrongPhase n1 data (by rwa [hph]), h.raise _⟩
  · exact ⟨_, execAbsorb_of_overlong data (by rwa [hph]) (by rwa [hlen]), h.raise _⟩
  · exact ⟨_, execAbsorb_of_fits data (by rwa [hph]) (by rwa [hlen]), (h.absorbBytes _).respond 0⟩

/-- FINAL reads the valid bytes of `buf` alone, and leaves no byte of it valid (R34, R218). -/
theorem State.AgreesWhereWritten.execFinal {s s' t : State} (h : s.AgreesWhereWritten s') (hx : execFinal s = .next t) :
    ∃ t', execFinal s' = .next t' ∧ t.AgreesWhereWritten t' := by
  have hpb := h.partialBlock_eq
  have hph : s'.phase = s.phase := by rw [h.others]
  rcases execFinal_cases hx with ⟨hp, rfl⟩ | ⟨hp, rfl⟩
  · exact ⟨_, execFinal_of_wrongPhase (by rwa [hph]), h.raise _⟩
  · refine ⟨_, execFinal_spec (by rwa [hph]), ?_⟩
    rw [hpb]
    obtain ⟨_, _, _, _, _, rfl⟩ := h.eq_update
    exact ⟨rfl, fun _ => h.chain (by simp [hp]), buf_agrees_of_fill_zero rfl, h.running⟩

/-- `H` is read in phase DONE alone, where it has been written (R31). -/
theorem State.AgreesWhereWritten.chainH_of_done {s s' : State} (h : s.AgreesWhereWritten s') (hp : s.phase = .done) :
    s'.chainH = s.chainH :=
  h.chain (by simp [hp])

theorem State.AgreesWhereWritten.execRddig {s s' t : State} {idx : BitVec 4} (h : s.AgreesWhereWritten s')
    (hx : execRddig idx s = .next t) : ∃ t', execRddig idx s' = .next t' ∧ t.AgreesWhereWritten t' := by
  have hph : s'.phase = s.phase := by rw [h.others]
  rcases execRddig_cases hx with ⟨hi, rfl⟩ | ⟨hi, hp, rfl⟩ | ⟨hi, hp, rfl⟩
  · exact ⟨_, dif_neg (by omega), h.raise _⟩
  · exact ⟨_, execRddig_of_wrongPhase hi (by rwa [hph]), h.raise _⟩
  · exact ⟨_, by rw [execRddig_of_done hi (by rwa [hph]), h.chainH_of_done hp], h.respond _⟩

theorem State.AgreesWhereWritten.execRdhex {s s' t : State} {idx : BitVec 4} (h : s.AgreesWhereWritten s')
    (hx : execRdhex idx s = .next t) : ∃ t', execRdhex idx s' = .next t' ∧ t.AgreesWhereWritten t' := by
  have hph : s'.phase = s.phase := by rw [h.others]
  rcases execRdhex_cases hx with ⟨hp, rfl⟩ | ⟨hp, rfl⟩
  · exact ⟨_, execRdhex_of_wrongPhase idx (by rwa [hph]), h.raise _⟩
  · exact ⟨_, by rw [execRdhex_of_done idx (by rwa [hph]), h.chainH_of_done hp], h.respond _⟩

/-- No command reads an element that nothing has written. -/
theorem State.AgreesWhereWritten.exec {i : Instr} {s s' t : State} (h : s.AgreesWhereWritten s') (hx : exec i s = .next t) :
    ∃ t', exec i s' = .next t' ∧ t.AgreesWhereWritten t' := by
  cases i with
  | nop =>
    obtain rfl := Host.Outcome.next.inj hx
    exact ⟨_, rfl, h.respond 0⟩
  | init => exact h.execInit hx
  | absorb n1 data => exact h.execAbsorb hx
  | final => exact h.execFinal hx
  | rddig idx => exact h.execRddig hx
  | rdhex idx => exact h.execRdhex hx
  | rdstat =>
    obtain rfl := Host.Outcome.next.inj hx
    exact ⟨_, rfl, by rw [h.status_turn.1]; exact h.respond _⟩

theorem State.AgreesWhereWritten.dispatchCommand {c : Command} {s s' t : State} (h : s.AgreesWhereWritten s')
    (hx : dispatchCommand c s = .next t) : ∃ t', dispatchCommand c s' = .next t' ∧ t.AgreesWhereWritten t' := by
  rcases dispatchCommand_cases hx with ⟨e, hd, rfl⟩ | ⟨i, hd, hx⟩
  · exact ⟨_, dispatchCommand_of_error hd s', h.raise _⟩
  · rw [dispatchCommand_of_ok hd]
    exact h.exec hx

theorem State.AgreesWhereWritten.hostStep {c : Command} {s s' t : State} (h : s.AgreesWhereWritten s')
    (hx : hostStep c s = .next t) : ∃ t', hostStep c s' = .next t' ∧ t.AgreesWhereWritten t' := by
  obtain ⟨u, hu, rfl⟩ := hostStep_eq_next.1 hx
  obtain ⟨u', hu', hagree⟩ := h.takeCommand.dispatchCommand hu
  exact ⟨_, hostStep_eq_next.2 ⟨u', hu', rfl⟩, hagree.returnResp⟩

/-! ### CORE -/

/-- A CORE step reads `t`, `v` and `W` of a running block alone, and `H` once a block is queued, so that an INIT has written it
(`State.Inv.busyPhase`). -/
theorem State.AgreesWhereWritten.coreStep {s s' t : State} (hi : s.Inv) (h : s.AgreesWhereWritten s')
    (hx : coreStep s = .next t) : ∃ t', coreStep s' = .next t' ∧ t.AgreesWhereWritten t' := by
  have hrun : s'.run = s.run := by rw [h.others]
  have hpend : s'.pend = s.pend := by rw [h.others]
  rcases coreStep_cases hx with ⟨hr, hp, rfl⟩ | ⟨hr, blk, rest, hp, rfl⟩ | ⟨hr, hn, rfl⟩ | ⟨hr, ht, rfl⟩
  · exact ⟨s', coreStep_idle (by rwa [hrun]) (by rwa [hpend]), h⟩
  · have hH : s'.chainH = s.chainH := h.chain (by rcases hi.busyPhase (by simp [hp]) with e | e <;> simp [e])
    refine ⟨_, coreStep_cstart (by rwa [hrun]) (hpend.trans hp), ?_⟩
    obtain ⟨_, _, _, _, _, rfl⟩ := h.eq_update
    exact ⟨rfl, h.chain, h.partialBlock, fun _ => ⟨rfl, hH, rfl⟩⟩
  · obtain ⟨_, _, _, _, _, rfl⟩ := h.eq_update
    obtain ⟨rfl, rfl, rfl⟩ := h.running hr
    refine ⟨_, coreStep_cround (by exact hr) (by exact hn), ?_⟩
    exact ⟨rfl, h.chain, h.partialBlock, fun _ => ⟨rfl, rfl, rfl⟩⟩
  · obtain ⟨ht', hv, -⟩ := h.running hr
    refine ⟨_, coreStep_cmix (by rwa [hrun]) (by rw [ht', ht]; rfl), ?_⟩
    obtain ⟨_, _, _, _, _, rfl⟩ := h.eq_update
    refine ⟨rfl, fun hne => ?_, h.partialBlock, fun hf => nomatch hf⟩
    have hH := h.chain fun hidle => hne (by simp [phaseAfterMix, hidle])
    exact congrArg₂ mix hH hv

theorem State.AgreesWhereWritten.countedCoreStep {s s' t : State} (hi : s.Inv) (h : s.AgreesWhereWritten s')
    (hx : countedCoreStep s = .next t) : ∃ t', countedCoreStep s' = .next t' ∧ t.AgreesWhereWritten t' := by
  obtain ⟨u, hu, rfl⟩ := countedCoreStep_eq_next.1 hx
  obtain ⟨u', hu', hagree⟩ := h.coreStep hi hu
  have hsteps : s'.coreSteps = s.coreSteps := by rw [h.others]
  refine ⟨_, countedCoreStep_eq_next.2 ⟨u', hu', rfl⟩, ?_⟩
  rw [hsteps]
  obtain ⟨_, _, _, _, _, rfl⟩ := hagree.eq_update
  exact ⟨rfl, hagree.chain, hagree.partialBlock, hagree.running⟩

/-! ### A step -/

/-- Every step goes on, in every state (R260, R280). -/
theorem step_completes (s : State) : ∃ t, step s = .next t := by
  rcases s.turn_cases with ⟨-, ht⟩ | ⟨-, c, rest, -, -, ht⟩ | ⟨-, -, ht⟩ | ⟨-, -, ht⟩
  · exact ⟨s.applyReset, by simp only [step, ht]⟩
  · rw [step_of_turn_host ht]
    have : ∃ u, dispatchCommand c s.takeCommand = .next u := by
      cases hd : decode c with
      | ok i => rw [dispatchCommand_of_ok hd]; exact exec_completes i _
      | error e => exact ⟨_, dispatchCommand_of_error hd _⟩
    obtain ⟨u, hu⟩ := this
    exact ⟨_, hostStep_eq_next.2 ⟨u, hu, rfl⟩⟩
  · rw [step_of_turn_core ht]
    obtain ⟨u, hu⟩ := coreStep_completes s
    exact ⟨_, countedCoreStep_eq_next.2 ⟨u, hu, rfl⟩⟩
  · exact ⟨s, by simp only [step, ht]⟩

/-- Reset gives both states the same values. -/
theorem State.AgreesWhereWritten.applyReset_eq {s s' : State} (h : s.AgreesWhereWritten s') :
    s'.applyReset = s.applyReset := by rw [h.others]; rfl

theorem State.AgreesWhereWritten.step {s s' t : State} (hi : s.Inv) (h : s.AgreesWhereWritten s') (hx : step s = .next t) :
    ∃ t', step s' = .next t' ∧ t.AgreesWhereWritten t' := by
  have hturn := h.status_turn.2
  unfold Machine.step at hx ⊢
  rw [hturn]
  cases hs : s.turn with
  | reset =>
    simp only [hs] at hx ⊢
    obtain rfl := Host.Outcome.next.inj hx
    exact ⟨_, rfl, by rw [h.applyReset_eq]; exact .refl _⟩
  | host c =>
    simp only [hs] at hx ⊢
    exact h.hostStep hx
  | core =>
    simp only [hs] at hx ⊢
    exact h.countedCoreStep hi hx
  | idle =>
    simp only [hs] at hx ⊢
    obtain rfl := Host.Outcome.next.inj hx
    exact ⟨s', rfl, h⟩

/-- Settles O57: every step goes on (`step_completes`), and agreement is a simulation between the two runs
(`State.AgreesWhereWritten.step`). -/
theorem noStepReadsAnUnwrittenElement : Obligations.NoStepReadsAnUnwrittenElement :=
  ⟨step_completes, fun _ _ _ hi h hx => h.step hi hx⟩

/-! ### Runs from reset -/

/-- A run of any length goes on, and keeps the agreement. -/
theorem State.AgreesWhereWritten.stepN {s s' : State} (hi : s.Inv) (h : s.AgreesWhereWritten s') (n : Nat) :
    ∃ t t', stepN n s = .next t ∧ stepN n s' = .next t' ∧ t.AgreesWhereWritten t' := by
  induction n generalizing s s' with
  | zero => exact ⟨s, s', rfl, rfl, h⟩
  | succ n ih =>
    obtain ⟨u, hu⟩ := step_completes s
    obtain ⟨u', hu', hagree⟩ := h.step hi hu
    simpa [Machine.stepN, hu, hu'] using ih (hi.step hu) hagree

/-- In phase IDLE with nothing running and `fill = 0`, none of the five elements has been written. -/
theorem State.agrees_of_nothing_written {s : State} (hp : s.phase = .idle) (hf : s.fill = 0) (hr : s.run = false)
    (h : Words8) (b : Block) (k : Fin 65) (v : Words8) (w : Words64) :
    s.AgreesWhereWritten { s with chainH := h, buf := b, t := k, v := v, w := w } :=
  ⟨rfl, fun hne => absurd hp hne, buf_agrees_of_fill_zero hf, fun hrun => by simp [hr] at hrun⟩

/-- Settles O58: the two machines agree where something has been written, and what HOST sees is not among the five elements. -/
theorem resetValuesAreNeverSeen : Obligations.ResetValuesAreNeverSeen := by
  intro n cs h b k v w
  have hi : { State.reset with port := cs }.Inv :=
    State.reset_inv.congr rfl rfl rfl rfl rfl rfl rfl rfl rfl rfl rfl
  have hagree := State.agrees_of_nothing_written (s := { State.reset with port := cs }) rfl rfl rfl h b k v w
  obtain ⟨t, t', ht, ht', hfin⟩ := hagree.stepN hi n
  exact ⟨t, t', ht, ht', by rw [hfin.others], by rw [hfin.others], hfin.status_turn.1, by rw [hfin.others]⟩

end Sys2Proof.Machine
end

section
/-!
PROOFS. What a step does to `phase` and `len`, and what it shows of `H` (spec/10_state.md R31, R35, R36): the effect of each command and of a
CORE step on the element, then the step.
-/

namespace Sys2Proof.Machine

/-! ### Accepted commands -/

/-- A command that a step took from the port and executed was accepted. -/
theorem accepted_of_exec {i : Instr} {c : Command} {rest : List Command} {s u : State} (hr : s.resetPin = false)
    (hp : s.port = c :: rest) (hd : decode c = .ok i) (hx : exec i s.takeCommand = .next u) : Accepted i s u.returnResp := by
  obtain ⟨-, -, -, -, hport, -⟩ := exec_core_fields hx
  exact ⟨hr, c, rest, hp, by simp [hport, hp], hd⟩

theorem coreStep_port {s t : State} (h : coreStep s = .next t) : t.port = s.port := by rw [coreStep_frame h]

/-- Conversely, a step in which a command is accepted executes it: no other step takes a pair from the port. -/
theorem exec_of_accepted {i : Instr} {s t : State} (h : step s = .next t) (ha : Accepted i s t) :
    ∃ u, exec i s.takeCommand = .next u ∧ t = u.returnResp := by
  obtain ⟨hr, c, rest, hp, ht, hd⟩ := ha
  have hne : t.port ≠ s.port := by rw [hp, ht]; exact (List.cons_ne_self c rest).symm
  rcases step_cases h with ⟨hr', -⟩ | ⟨c', rest', e, -, hp', -, hd', -⟩ | ⟨c', rest', j, u, -, hp', -, hd', hx, rfl⟩ |
    ⟨-, -, u, hu, rfl⟩ | ⟨-, -, rfl⟩
  · simp [hr] at hr'
  · obtain ⟨rfl, rfl⟩ := List.cons.inj (hp.symm.trans hp')
    simp [hd] at hd'
  · obtain ⟨rfl, rfl⟩ := List.cons.inj (hp.symm.trans hp')
    obtain rfl := Except.ok.inj (hd.symm.trans hd')
    exact ⟨u, hx, rfl⟩
  · exact absurd (coreStep_port hu) hne
  · exact absurd rfl hne

/-! ### `phase` (R35) -/

theorem absorbBytes_phase (bs : List Byte) (s : State) : (absorbBytes bs s).phase = s.phase := by
  rw [absorbBytes_frame]

/-- The commands that change `phase`: INIT, and FINAL in phase ABSORB. -/
theorem exec_phase {i : Instr} {s t : State} (h : exec i s = .next t) :
    t.phase = s.phase ∨ (i = .init ∧ t.phase = .absorb) ∨ (i = .final ∧ s.phase = .absorb ∧ t.phase = .finalizing) := by
  cases i with
  | nop => obtain rfl := Host.Outcome.next.inj h; simp
  | init => obtain rfl := Host.Outcome.next.inj h; simp
  | absorb n1 data =>
    rcases execAbsorb_cases h with ⟨-, rfl⟩ | ⟨-, -, rfl⟩ | ⟨-, -, rfl⟩
    · simp
    · simp
    · simp [absorbBytes_phase]
  | final =>
    rcases execFinal_cases h with ⟨-, rfl⟩ | ⟨hp, rfl⟩
    · simp
    · simp [hp]
  | rddig idx => rcases execRddig_cases h with ⟨-, rfl⟩ | ⟨-, -, rfl⟩ | ⟨_, -, rfl⟩ <;> simp
  | rdhex idx => rcases execRdhex_cases h with ⟨-, rfl⟩ | ⟨-, rfl⟩ <;> simp
  | rdstat => obtain rfl := Host.Outcome.next.inj h; simp

/-- The CORE step that changes `phase`: the CMIX that empties `pend` in phase FINALIZING. -/
theorem coreStep_phase {s t : State} (h : coreStep s = .next t) :
    t.phase = s.phase ∨ (s.run = true ∧ s.t = 64 ∧ s.phase = .finalizing ∧ t.phase = .done ∧ t.pend = []) := by
  rcases coreStep_cases h with ⟨-, -, rfl⟩ | ⟨-, _, _, -, rfl⟩ | ⟨-, _, rfl⟩ | ⟨hr, ht, rfl⟩
  · exact .inl rfl
  · exact .inl rfl
  · exact .inl rfl
  · rcases phaseAfterMix_cases s.phase s.pend.tail with ⟨hp, hf, hd⟩ | ⟨-, hd⟩
    · exact .inr ⟨hr, ht, hf, hd, hp⟩
    · exact .inl hd

theorem step_phase {s t : State} (h : step s = .next t) (hne : t.phase ≠ s.phase) :
    (s.resetPin = true ∧ t.phase = .idle) ∨
    (Accepted .init s t ∧ t.phase = .absorb) ∨
    (Accepted .final s t ∧ s.phase = .absorb ∧ t.phase = .finalizing) ∨
    (s.run = true ∧ s.t = 64 ∧ s.phase = .finalizing ∧ t.phase = .done ∧ t.pend = []) := by
  rcases step_cases h with ⟨hr, rfl⟩ | ⟨c, rest, e, -, -, -, -, rfl⟩ | ⟨c, rest, i, u, hr, hp, -, hd, hx, rfl⟩ |
    ⟨-, -, u, hu, rfl⟩ | ⟨-, -, rfl⟩
  · exact .inl ⟨hr, rfl⟩
  · exact absurd (by simp) hne
  · rcases exec_phase hx with he | ⟨rfl, he⟩ | ⟨rfl, hs, he⟩
    · exact absurd he hne
    · exact .inr (.inl ⟨accepted_of_exec hr hp hd hx, he⟩)
    · exact .inr (.inr (.inl ⟨accepted_of_exec hr hp hd hx, hs, he⟩))
  · exact .inr (.inr (.inr ((coreStep_phase hu).resolve_left hne)))
  · exact absurd rfl hne

theorem step_of_resetPin {s t : State} (hr : s.resetPin = true) (h : step s = .next t) : t = s.applyReset := by
  simp only [step, State.turn_reset hr] at h
  exact (Host.Outcome.next.inj h).symm

theorem execFinal_phase {s t : State} (hp : s.phase = .absorb) (h : execFinal s = .next t) : t.phase = .finalizing := by
  rw [execFinal_spec hp] at h
  obtain rfl := Host.Outcome.next.inj h
  rfl

/-- The CMIX that empties `pend` ends a finalizing message (R150). -/
theorem coreStep_phase_done {s t : State} (hr : s.run = true) (ht : s.t = 64) (hf : s.phase = .finalizing)
    (h : coreStep s = .next t) (he : t.pend = []) : t.phase = .done := by
  rw [coreStep_cmix hr (by simp [ht])] at h
  obtain rfl := Host.Outcome.next.inj h
  simp [phaseAfterMix, hf, show s.pend.tail = [] from he]

/-- Settles O51: the four transitions are `exec_phase` and `coreStep_phase` and reset, and each of them does happen. -/
theorem phaseChangesOnlyAsListed : Obligations.PhaseChangesOnlyAsListed := by
  refine ⟨⟨rfl, rfl, rfl, rfl⟩, fun s t h => step_phase h, fun s t hr h => ?_, fun s t h => ?_, fun s t => execFinal_phase,
    fun s t => coreStep_phase_done, State.raise_phase⟩
  · rw [step_of_resetPin hr h]
    rfl
  · obtain rfl := Host.Outcome.next.inj h
    rfl

/-! ### `len` (R36) -/

/-- What a command leaves in `len`: INIT clears it, and an ABSORB that is not refused adds its byte count. -/
def lenAfter : Instr → State → Nat
  | .init, _ => 0
  | .absorb n1 _, s =>
    if s.phase = .absorb ∧ s.len + byteCount n1 ≤ Config.maxMsgBytes then s.len + byteCount n1 else s.len
  | _, s => s.len

theorem absorbBytes_len (bs : List Byte) (s : State) : (absorbBytes bs s).len = s.len + bs.length := by
  rw [absorbBytes_frame]

theorem exec_len {i : Instr} {s t : State} (h : exec i s = .next t) : t.len = lenAfter i s := by
  cases i with
  | nop => obtain rfl := Host.Outcome.next.inj h; rfl
  | init => obtain rfl := Host.Outcome.next.inj h; rfl
  | absorb n1 data =>
    rcases execAbsorb_cases h with ⟨hp, rfl⟩ | ⟨-, hl, rfl⟩ | ⟨hp, hl, rfl⟩
    · simp [lenAfter, hp]
    · simp [lenAfter, Nat.not_le.2 hl]
    · simp [lenAfter, hp, hl, absorbBytes_len, lanes_length]
  | final => rcases execFinal_cases h with ⟨-, rfl⟩ | ⟨-, rfl⟩ <;> simp [lenAfter]
  | rddig idx => rcases execRddig_cases h with ⟨-, rfl⟩ | ⟨-, -, rfl⟩ | ⟨_, -, rfl⟩ <;> simp [lenAfter]
  | rdhex idx => rcases execRdhex_cases h with ⟨-, rfl⟩ | ⟨-, rfl⟩ <;> simp [lenAfter]
  | rdstat => obtain rfl := Host.Outcome.next.inj h; rfl

theorem lenAfter_takeCommand (i : Instr) (s : State) : lenAfter i s.takeCommand = lenAfter i s := by
  cases i <;> rfl

/-- The commands that change `len`: INIT, and ABSORB by its byte count. -/
theorem lenAfter_cases (i : Instr) (s : State) :
    lenAfter i s = s.len ∨ (i = .init ∧ lenAfter i s = 0) ∨
    (∃ n1 data, i = .absorb n1 data ∧ lenAfter i s = s.len + byteCount n1 ∧ s.len + byteCount n1 ≤ Config.maxMsgBytes) := by
  cases i with
  | init => exact .inr (.inl ⟨rfl, rfl⟩)
  | absorb n1 data =>
    by_cases hfit : s.phase = .absorb ∧ s.len + byteCount n1 ≤ Config.maxMsgBytes
    · exact .inr (.inr ⟨n1, data, rfl, if_pos hfit, hfit.2⟩)
    · exact .inl (if_neg hfit)
  | nop | final | rddig | rdhex | rdstat => exact .inl rfl

theorem len_of_accepted {i : Instr} {s t : State} (h : step s = .next t) (ha : Accepted i s t) : t.len = lenAfter i s := by
  obtain ⟨u, hx, rfl⟩ := exec_of_accepted h ha
  exact (exec_len hx).trans (lenAfter_takeCommand i s)

/-- Every step leaves `len` but reset and an accepted INIT or ABSORB, and what an ABSORB leaves is within the bound. -/
theorem step_len {s t : State} (h : step s = .next t) :
    t.len = s.len ∨ (s.resetPin = true ∧ t.len = 0) ∨ (Accepted .init s t ∧ t.len = 0) ∨
    (∃ n1 data, Accepted (.absorb n1 data) s t ∧ t.len = s.len + byteCount n1 ∧ t.len ≤ Config.maxMsgBytes) := by
  rcases step_cases h with ⟨hr, rfl⟩ | ⟨c, rest, e, -, -, -, -, rfl⟩ | ⟨c, rest, i, u, hr, hp, -, hd, hx, rfl⟩ |
    ⟨-, -, u, hu, rfl⟩ | ⟨-, -, rfl⟩
  · exact .inr (.inl ⟨hr, rfl⟩)
  · exact .inl (by simp)
  · have ha := accepted_of_exec hr hp hd hx
    rw [len_of_accepted h ha]
    rcases lenAfter_cases i s with he | ⟨rfl, he⟩ | ⟨n1, data, rfl, he, hb⟩
    · exact .inl he
    · exact .inr (.inr (.inl ⟨ha, he⟩))
    · exact .inr (.inr (.inr ⟨n1, data, ha, he, he ▸ hb⟩))
  · exact .inl (by rw [coreStep_frame hu])
  · exact .inl rfl

/-- Settles O52: `step_len` is the inversion, and `lenAfter` what an accepted command leaves. -/
theorem lenCountsAbsorbedBytes : Obligations.LenCountsAbsorbedBytes := by
  intro s t h
  refine ⟨fun hne => ?_, fun n1 data ha => ?_, fun ha => len_of_accepted h ha, fun hr => ?_, fun hs => ?_⟩
  · rcases (step_len h).resolve_left hne with hr | hi | ⟨n1, data, ha, he, -⟩
    · exact .inl hr
    · exact .inr (.inl hi)
    · exact .inr (.inr ⟨n1, data, ha, he⟩)
  · rw [len_of_accepted h ha]
    refine ⟨fun hp hb => if_pos ⟨hp, hb⟩, fun hw => if_neg ?_⟩
    rintro ⟨hp, hb⟩
    exact hw.elim (· hp) (Nat.not_lt.2 hb)
  · rw [step_of_resetPin hr h]
    rfl
  · have hb : t.len ≤ 2 ^ 61 - 1 := by
      rcases step_len h with he | ⟨-, he⟩ | ⟨-, he⟩ | ⟨n1, data, -, -, hb⟩
      · exact he ▸ hs
      · omega
      · omega
      · exact hb
    exact ⟨hb, by omega⟩

/-! ### `H` is hidden (R31) -/

/-- The intake neither reads nor writes `H`. -/
theorem absorbByte_with_chainH (b : Byte) (s : State) (h : Words8) :
    absorbByte b { s with chainH := h } = { absorbByte b s with chainH := h } := by
  unfold absorbByte
  by_cases hlt : s.fill.val + 1 < 64
  · rw [dif_pos hlt, dif_pos hlt]
    rfl
  · rw [dif_neg hlt, dif_neg hlt]
    rfl

theorem absorbBytes_with_chainH (bs : List Byte) (s : State) (h : Words8) :
    absorbBytes bs { s with chainH := h } = { absorbBytes bs s with chainH := h } := by
  induction bs generalizing s with
  | nil => rfl
  | cons b bs ih => rw [absorbBytes, absorbByte_with_chainH, ih, absorbBytes]

theorem State.raise_with_chainH (s : State) (c : Cause) (h : Words8) :
    State.raise { s with chainH := h } c = { s.raise c with chainH := h } := by
  unfold State.raise
  split <;> rfl

/-- Outside phase DONE a command does the same whatever `H` is, `H` itself apart. -/
theorem exec_with_chainH {i : Instr} {s t : State} (h : Words8) (hp : s.phase ≠ .done) (hx : exec i s = .next t) :
    ∃ t', exec i { s with chainH := h } = .next t' ∧ t' = { t with chainH := t'.chainH } := by
  cases i with
  | nop => obtain rfl := Host.Outcome.next.inj hx; exact ⟨_, rfl, rfl⟩
  | init => obtain rfl := Host.Outcome.next.inj hx; exact ⟨_, rfl, rfl⟩
  | absorb n1 data =>
    rcases execAbsorb_cases hx with ⟨hne, rfl⟩ | ⟨ha, hl, rfl⟩ | ⟨ha, hl, rfl⟩
    · exact ⟨_, execAbsorb_of_wrongPhase n1 data hne, by rw [State.raise_with_chainH]⟩
    · exact ⟨_, execAbsorb_of_overlong data ha hl, by rw [State.raise_with_chainH]⟩
    · exact ⟨_, execAbsorb_of_fits data ha hl, by rw [absorbBytes_with_chainH]; rfl⟩
  | final =>
    rcases execFinal_cases hx with ⟨hne, rfl⟩ | ⟨ha, rfl⟩
    · exact ⟨_, execFinal_of_wrongPhase hne, by rw [State.raise_with_chainH]⟩
    · exact ⟨_, execFinal_spec ha, rfl⟩
  | rddig idx =>
    rcases execRddig_cases hx with ⟨hi, rfl⟩ | ⟨hi, -, rfl⟩ | ⟨-, hd, -⟩
    · exact ⟨_, dif_neg (by omega), by rw [State.raise_with_chainH]⟩
    · exact ⟨_, execRddig_of_wrongPhase hi hp, by rw [State.raise_with_chainH]⟩
    · exact absurd hd hp
  | rdhex idx =>
    rcases execRdhex_cases hx with ⟨-, rfl⟩ | ⟨hd, -⟩
    · exact ⟨_, execRdhex_of_wrongPhase idx hp, by rw [State.raise_with_chainH]⟩
    · exact absurd hd hp
  | rdstat => obtain rfl := Host.Outcome.next.inj hx; exact ⟨_, rfl, rfl⟩

/-- Settles O54: the two next states differ in `H` alone, which neither RESP nor STATUS shows. -/
theorem chainingStateIsHiddenUntilDone : Obligations.ChainingStateIsHiddenUntilDone := by
  intro i s t h hp hx
  obtain ⟨t', hx', he⟩ := exec_with_chainH h hp hx
  exact ⟨t', hx', by rw [he], by rw [he]; rfl⟩

end Sys2Proof.Machine
end

section
/-!
PROOFS. The two constant tables (spec/10_state.md R32, R33): a table word is the low half of the integer root of its prime, scaled.
-/

namespace Sys2Proof.Machine

/-! ### The initialization vector (R32) -/

/-- Word `i` of IV, under the integer part of the square root, is the root of the prime scaled by `2 ^ 64`. -/
theorem iv_sqrt_bounds : ∀ i : Fin 8,
    let p := #v[2, 3, 5, 7, 11, 13, 17, 19][i]
    let r := #v[1, 1, 2, 2, 3, 3, 4, 4][i] * 2 ^ 32 + iv[i].toNat
    r * r ≤ p * 2 ^ 64 ∧ p * 2 ^ 64 < (r + 1) * (r + 1) := by
  decide

/-- Settles O15. -/
theorem initializationVectorIsSquareRootFractions : Obligations.InitializationVectorIsSquareRootFractions := by
  refine ⟨fun i => ?_, rfl, fun s => ⟨_, rfl, rfl⟩⟩
  rw [← Nat.eq_sqrt.2 (iv_sqrt_bounds i), Nat.mul_add_mod_self_right, Nat.mod_eq_of_lt iv[i].isLt]

/-! ### The constant ROM (R33) -/

/-- The first 64 primes. -/
def firstPrimes : Vector Nat 64 :=
  #v[2, 3, 5, 7, 11, 13, 17, 19, 23, 29, 31, 37, 41, 43, 47, 53, 59, 61, 67, 71, 73, 79, 83, 89, 97, 101, 103, 107, 109, 113,
    127, 131, 137, 139, 149, 151, 157, 163, 167, 173, 179, 181, 191, 193, 197, 199, 211, 223, 227, 229, 233, 239, 241, 251,
    257, 263, 269, 271, 277, 281, 283, 293, 307, 311]

/-- Primality by the least factor, which is fast to evaluate (`Nat.prime_def_minFac`). -/
theorem firstPrimes_eq_filter :
    firstPrimes.toList = (List.range 312).filter fun n => 2 ≤ n ∧ n.minFac = n := by
  decide +kernel

theorem mem_firstPrimes_iff (n : Nat) : n ∈ firstPrimes.toList ↔ n < 312 ∧ Nat.Prime n := by
  rw [firstPrimes_eq_filter, List.mem_filter, List.mem_range, decide_eq_true_iff, Nat.prime_def_minFac]

/-- The primes are counted in the list, whose entries are different from each other. -/
theorem count_prime_eq {m : Nat} (hm : m ≤ 312) :
    Nat.count Nat.Prime m = (firstPrimes.toList.filter (· < m)).length := by
  have hset : (Finset.range m).filter Nat.Prime = (firstPrimes.toList.filter (· < m)).toFinset := by
    ext n
    simp only [Finset.mem_filter, Finset.mem_range, List.mem_toFinset, List.mem_filter, decide_eq_true_iff,
      mem_firstPrimes_iff]
    exact ⟨fun ⟨hn, hp⟩ => ⟨⟨by omega, hp⟩, hn⟩, fun ⟨⟨_, hp⟩, hn⟩ => ⟨hn, hp⟩⟩
  have hnodup : firstPrimes.toList.Nodup := by
    rw [firstPrimes_eq_filter]
    exact List.nodup_range.filter _
  rw [Nat.count_eq_card_filter_range, hset, List.toFinset_card_of_nodup (hnodup.filter _)]

/-- The list is sorted: `i` entries are smaller than entry `i`. -/
theorem firstPrimes_sorted : ∀ i : Fin 64, (firstPrimes.toList.filter (· < firstPrimes[i])).length = i.val := by
  decide +kernel

theorem nth_prime_eq_firstPrimes (i : Fin 64) : Nat.nth Nat.Prime i.val = firstPrimes[i] := by
  obtain ⟨hlt, hp⟩ := (mem_firstPrimes_iff firstPrimes[i]).1 (by simp)
  have h := Nat.nth_count hp
  rwa [count_prime_eq hlt.le, firstPrimes_sorted] at h

/-- The integer part of the cube root of a prime up to 311. -/
def cubeRootFloor (p : Nat) : Nat := Nat.findGreatest (fun c => c ^ 3 ≤ p) 6

/-- ROM word `i`, under the integer part of the cube root, is the root of the prime scaled by `2 ^ 96`. -/
theorem kRom_cbrt_bounds : ∀ i : Fin 64,
    let r := cubeRootFloor firstPrimes[i] * 2 ^ 32 + kRom[i].toNat
    r ^ 3 ≤ firstPrimes[i] * 2 ^ 96 ∧ firstPrimes[i] * 2 ^ 96 < (r + 1) ^ 3 := by
  decide +kernel

/-- Settles O16. -/
theorem constantRomIsCubeRootFractions : Obligations.ConstantRomIsCubeRootFractions := by
  intro i
  obtain ⟨hle, hlt⟩ := kRom_cbrt_bounds i
  rw [nth_prime_eq_firstPrimes]
  exact ⟨_, hle, hlt, by rw [Nat.mul_add_mod_self_right, Nat.mod_eq_of_lt kRom[i].isLt]⟩

end Sys2Proof.Machine
end

section
/-!
PROOFS. The fields of STATUS (spec/10_state.md R43), read back from the word that `State.status` puts together.
-/

namespace Sys2Proof.Machine

/-- The word of `State.status`, with its width written as the sum of the fields' widths, as the library's lemmas about `++` have it. -/
def State.statusFields (s : State) : BitVec (13 + 2 + 1 + 6 + 6 + 2 + 1 + 1) :=
  0#13 ++ s.cause.code ++ BitVec.ofBool s.err ++ 0#6 ++ BitVec.ofNat 6 s.fill.val ++ s.phase.code
    ++ BitVec.ofBool s.dvalid ++ BitVec.ofBool s.busy

/-- The flags BUSY, DVALID and ERR. -/
theorem State.status_flags (s : State) :
    s.status.getLsbD 0 = s.busy ∧ s.status.getLsbD 1 = s.dvalid ∧ s.status.getLsbD 16 = s.err := by
  have h : s.statusFields.getLsbD 0 = s.busy ∧ s.statusFields.getLsbD 1 = s.dvalid ∧
      s.statusFields.getLsbD 16 = s.err := by
    simp only [State.statusFields, BitVec.getLsbD_append]
    simp
  exact h

/-- The fields PHASE, FILL and CAUSE. -/
theorem State.status_phase_fill_cause (s : State) :
    s.status.extractLsb' 2 2 = s.phase.code ∧ s.status.extractLsb' 4 6 = BitVec.ofNat 6 s.fill.val ∧
      s.status.extractLsb' 17 2 = s.cause.code := by
  have h : s.statusFields.extractLsb' 2 2 = s.phase.code ∧
      s.statusFields.extractLsb' 4 6 = BitVec.ofNat 6 s.fill.val ∧ s.statusFields.extractLsb' 17 2 = s.cause.code := by
    simp only [State.statusFields, BitVec.extractLsb'_append_eq_ite]
    simp
  exact h

theorem State.status_reserved (s : State) : s.status.extractLsb' 10 6 = 0 ∧ s.status.extractLsb' 19 13 = 0 := by
  have h : s.statusFields.extractLsb' 10 6 = 0 ∧ s.statusFields.extractLsb' 19 13 = 0 := by
    simp only [State.statusFields, BitVec.extractLsb'_append_eq_ite]
    simp
  exact h

/-- R85: RDSTAT's word is its row's pattern, and DATA is no operand of it. -/
theorem decode_rdstat (data : Word) : decode ⟨0x00000006, data⟩ = .ok .rdstat := by
  have h : Row.matchesWord ⟨.rdstat, 0x00000006, 0xFFFFFFFF⟩ 0x00000006 = true := by decide
  exact decode_of_matches (r := ⟨.rdstat, 0x00000006, 0xFFFFFFFF⟩) (by decide) h

theorem State.accepts_rdstat (s : State) (data : Word) : s.accepts ⟨0x00000006, data⟩ = true :=
  (s.accepts_iff _).2 (.inr (.inr (decode_rdstat data)))

/-- Settles O31: the word that RDSTAT answers is `State.status`, with the fields of the lemmas above. -/
theorem rdstatReadsEveryStatusField : Obligations.RdstatReadsEveryStatusField := by
  refine ⟨decode_rdstat, fun s => ?_, State.accepts_rdstat, by decide⟩
  obtain ⟨hbusy, hdvalid, herr⟩ := s.status_flags
  obtain ⟨hphase, hfill, hcause⟩ := s.status_phase_fill_cause
  obtain ⟨hmid, hhigh⟩ := s.status_reserved
  refine ⟨s.status, rfl, ?_, ?_, ?_, ?_, hmid, herr, ?_, hhigh⟩
  · rw [hbusy, s.busy_true_iff]
  · rw [hdvalid, State.dvalid, decide_eq_true_iff]
  · rw [hphase]
    cases s.phase <;> rfl
  · rw [hfill]
    exact Nat.mod_eq_of_lt s.fill.isLt
  · rw [hcause]
    cases s.cause <;> rfl

end Sys2Proof.Machine
end

section
/-!
PROOFS. The commands that only answer (spec/45_host_commands.md R210, R222, R225, R228) and the digest they read (spec/44_digest_hex.md
R180).
-/

namespace Sys2Proof.Machine

/-! ### The frame of NOP, RDDIG, RDHEX and RDSTAT (R69, R263) -/

/-- FRAME of `raise`, as one equation. -/
theorem State.raise_frame (s : State) (c : Cause) :
    s.raise c = { s with err := (s.raise c).err, cause := (s.raise c).cause, resp := (s.raise c).resp } := by
  unfold State.raise
  split <;> rfl

/-- Each of the four answers a word or raises, and a well-formed one does not raise in phase DONE. -/
theorem exec_readCommand_cases {i : Instr} {s t : State}
    (hi : i = .nop ∨ (∃ idx, i = .rddig idx) ∨ (∃ idx, i = .rdhex idx) ∨ i = .rdstat) (hx : exec i s = .next t) :
    (∃ x, t = s.respond x) ∨ (∃ c, t = s.raise c ∧ (s.phase = .done → i.wellFormed = false)) := by
  rcases hi with rfl | ⟨idx, rfl⟩ | ⟨idx, rfl⟩ | rfl
  · exact .inl ⟨0, (Host.Outcome.next.inj hx).symm⟩
  · rcases execRddig_cases hx with ⟨h8, rfl⟩ | ⟨-, hp, rfl⟩ | ⟨_, -, rfl⟩
    · exact .inr ⟨_, rfl, fun _ => decide_eq_false (Nat.not_lt.2 h8)⟩
    · exact .inr ⟨_, rfl, fun hd => absurd hd hp⟩
    · exact .inl ⟨_, rfl⟩
  · rcases execRdhex_cases hx with ⟨hp, rfl⟩ | ⟨-, rfl⟩
    · exact .inr ⟨_, rfl, fun hd => absurd hd hp⟩
    · exact .inl ⟨_, rfl⟩
  · exact .inl ⟨s.status, (Host.Outcome.next.inj hx).symm⟩

/-- Settles O38: the frame is that of `State.respond` or of `State.raise`. -/
theorem readCommandsLeaveTheRestUnchanged : Obligations.ReadCommandsLeaveTheRestUnchanged := by
  intro i s t hi hx
  rcases exec_readCommand_cases hi hx with ⟨x, rfl⟩ | ⟨c, rfl, hill⟩
  · exact ⟨rfl, fun _ _ => ⟨rfl, rfl⟩⟩
  · exact ⟨s.raise_frame c, fun hd hw => absurd hw (by simp [hill hd])⟩

/-! ### The bytes of the digest (R63, R180) -/

/-- The four digest bytes of word `i`. -/
theorem take_drop_digestBytes (h : Words8) {i : Nat} (hi : i < 8) :
    ((digestBytes h).drop (4 * i)).take 4 = bytes32 h[i] := by
  apply List.ext_getElem?
  intro k
  by_cases hk : k < 4
  · rw [List.getElem?_take_of_lt hk, List.getElem?_drop, digestBytes_getElem? h hi hk, bytes32_getElem? _ hk]
  · rw [List.getElem?_eq_none (by simp; omega), List.getElem?_eq_none (by simp; omega)]

/-- Settles O21: R180's example is word 0 of `take_drop_digestBytes`. -/
theorem digestBytesAreBigEndian : Obligations.DigestBytesAreBigEndian := by
  refine ⟨digestBytes_length, fun h i k => digestBytes_getElem? h i.isLt k.isLt, fun h h0 => ?_⟩
  have hw : (digestBytes h).take 4 = bytes32 h[0] := take_drop_digestBytes h (i := 0) (by omega)
  rw [hw, h0]
  decide

end Sys2Proof.Machine
end

section
/-!
PROOFS. The decoder and the encoder (spec/30_encoding.md R80-R89). Each row of the table of R85 is the row of its opcode, written by
fields; so whether a word decodes is a matter of its fields, and so is what it decodes to.
-/

namespace Sys2Proof

/-! ### The table of R85 by opcode -/

/-- The assigned value of `OP` (R83). -/
def Opcode.code : Opcode → BitVec 4
  | .nop => 0
  | .init => 1
  | .absorb => 2
  | .final => 3
  | .rddig => 4
  | .rdhex => 5
  | .rdstat => 6

/-- The values of `OP` below 7 are the assigned ones. -/
theorem opcode_lt_seven_iff : ∀ op : BitVec 4, op.toNat < 7 ↔ ∃ r ∈ opcodeRows, r.op.code = op := by
  decide

/-- The bits of `N1` that R85 requires to be 0. -/
def Opcode.n1Mask : Opcode → BitVec 2
  | .absorb => 0
  | _ => BitVec.allOnes 2

/-- The bits of `IDX` that R85 requires to be 0. -/
def Opcode.idxMask : Opcode → BitVec 4
  | .rddig => 8
  | .rdhex => 0
  | _ => BitVec.allOnes 4

/-- The row of an opcode, its match and its mask laid out by the fields of R80. -/
def Opcode.row (op : Opcode) : Row :=
  ⟨op, wordOfFields 0 0 0 0 op.code,
    wordOfFields (BitVec.allOnes 20) op.idxMask (BitVec.allOnes 2) op.n1Mask (BitVec.allOnes 4)⟩

theorem Opcode.row_mem (op : Opcode) : op.row ∈ opcodeRows := by
  cases op <;> decide

/-- The table of R85, read by fields. -/
theorem eq_row_of_mem : ∀ r ∈ opcodeRows, r = r.op.row := by
  decide

/-! ### Legal words (R86) -/

/-- A CMD word that falls under none of the five clauses of R86. -/
structure LegalFields (cmd : Word) : Prop where
  opcode : (opField cmd).toNat < 7
  reservedHigh : reservedHighField cmd = 0
  reservedLow : reservedLowField cmd = 0
  n1 : opField cmd = 2 ∨ n1Field cmd = 0
  idx : opField cmd = 5 ∨ (opField cmd = 4 ∧ (idxField cmd).toNat < 8) ∨ idxField cmd = 0

theorem and_n1Mask_eq_zero_iff (op : Opcode) (n1 : BitVec 2) : n1 &&& op.n1Mask = 0 ↔ op.code = 2 ∨ n1 = 0 := by
  cases op <;> revert n1 <;> decide

theorem and_idxMask_eq_zero_iff (op : Opcode) (idx : BitVec 4) :
    idx &&& op.idxMask = 0 ↔ op.code = 5 ∨ (op.code = 4 ∧ idx.toNat < 8) ∨ idx = 0 := by
  cases op <;> revert idx <;> decide

/-- R85, R86: the row of `op` matches exactly the legal words whose `OP` is the code of `op`. -/
theorem Opcode.row_matchesWord_iff (op : Opcode) (cmd : Word) :
    op.row.matchesWord cmd = true ↔ LegalFields cmd ∧ opField cmd = op.code := by
  have h := matches_fields op 0 (BitVec.allOnes 20) (reservedHighField cmd) 0 op.idxMask (idxField cmd) 0 (BitVec.allOnes 2)
    (reservedLowField cmd) 0 op.n1Mask (n1Field cmd) op.code (BitVec.allOnes 4) (opField cmd)
  rw [wordOfFields_of_word] at h
  simp only [BitVec.and_allOnes, and_n1Mask_eq_zero_iff, and_idxMask_eq_zero_iff] at h
  refine h.trans ⟨?_, ?_⟩
  · rintro ⟨hhi, hidx, hlo, hn1, hop⟩
    rw [← hop] at hidx hn1
    exact ⟨⟨(opcode_lt_seven_iff _).2 ⟨op.row, op.row_mem, hop.symm⟩, hhi, hlo, hn1, hidx⟩, hop⟩
  · rintro ⟨⟨-, hhi, hlo, hn1, hidx⟩, hop⟩
    rw [hop] at hidx hn1
    exact ⟨hhi, hidx, hlo, hn1, hop⟩

/-! ### What a word decodes to (R85) -/

/-- The opcode of a command. -/
def Instr.opcode : Instr → Opcode
  | .nop => .nop
  | .init => .init
  | .absorb _ _ => .absorb
  | .final => .final
  | .rddig _ => .rddig
  | .rdhex _ => .rdhex
  | .rdstat => .rdstat

@[simp] theorem opcode_operandsOf (op : Opcode) (c : Command) : (operandsOf op c).opcode = op := by
  cases op <;> rfl

/-- R85: a pair decodes to `i` exactly where the row of its opcode matches and `i` has the operands in the pair. -/
theorem decode_eq_ok_iff_matches (c : Command) (i : Instr) :
    decode c = .ok i ↔ i.opcode.row.matchesWord c.cmd = true ∧ operandsOf i.opcode c = i := by
  constructor
  · intro h
    obtain ⟨r, hr, hm, rfl⟩ := decode_eq_ok h
    rw [eq_row_of_mem r hr] at hm
    rw [opcode_operandsOf]
    exact ⟨hm, rfl⟩
  · rintro ⟨hm, hi⟩
    rw [decode_of_matches i.opcode.row_mem hm]
    exact congrArg Except.ok hi

theorem decode_eq_ok_iff (c : Command) (i : Instr) :
    decode c = .ok i ↔ LegalFields c.cmd ∧ opField c.cmd = i.opcode.code ∧ operandsOf i.opcode c = i := by
  rw [decode_eq_ok_iff_matches, Opcode.row_matchesWord_iff, and_assoc]

theorem operandsOf_of_decode {c : Command} {i : Instr} (h : decode c = .ok i) : operandsOf i.opcode c = i :=
  ((decode_eq_ok_iff_matches c i).1 h).2

/-- R86: which pairs decode is settled by the fields of CMD. -/
theorem exists_decode_eq_ok_iff (c : Command) : (∃ i, decode c = .ok i) ↔ LegalFields c.cmd := by
  constructor
  · rintro ⟨i, h⟩
    exact ((decode_eq_ok_iff c i).1 h).1
  · intro h
    obtain ⟨r, -, hop⟩ := (opcode_lt_seven_iff _).1 h.opcode
    exact ⟨_, decode_of_matches r.op.row_mem ((r.op.row_matchesWord_iff c.cmd).2 ⟨h, hop.symm⟩)⟩

theorem exists_decode_eq_error_iff (c : Command) : (∃ e, decode c = .error e) ↔ ¬ LegalFields c.cmd := by
  rw [← exists_decode_eq_ok_iff]
  cases decode c <;> simp

/-! ### Decoding and encoding are inverses (R85, R89) -/

theorem encodedRow (i : Instr) : Laws.EncodedRow.Statement i := by
  cases i with
  | nop => exact Laws.EncodedRow.nop
  | init => exact Laws.EncodedRow.init
  | absorb n1 data => exact Laws.EncodedRow.absorb n1 data
  | final => exact Laws.EncodedRow.final
  | rddig idx => exact Laws.EncodedRow.rddig idx
  | rdhex idx => exact Laws.EncodedRow.rdhex idx
  | rdstat => exact Laws.EncodedRow.rdstat

/-- Settles O1: the encoder's word lies in a row, and that row gives the command back (`encodedRow`). -/
theorem decodeOfEncodeIsTheCommand : Obligations.DecodeOfEncodeIsTheCommand := by
  intro i hw
  obtain ⟨r, hr, hm, hi⟩ := encodedRow i hw
  rw [decode_of_matches hr hm, hi]

/-- A legal word is its opcode and its operand fields, laid out as the encoder does. -/
theorem LegalFields.eq_cmdWord {cmd : Word} (h : LegalFields cmd) :
    cmdWord (opField cmd) (n1Field cmd) (idxField cmd) = cmd := by
  have hw := wordOfFields_of_word cmd
  rwa [h.reservedHigh, h.reservedLow] at hw

/-- The operand fields that a command does not have are 0 in its legal words, as the encoder writes them. -/
theorem encode_cmd_of_decode {c : Command} {i : Instr} (h : decode c = .ok i) : (encode i).cmd = c.cmd := by
  obtain ⟨hl, hop, hi⟩ := (decode_eq_ok_iff c i).1 h
  have hn1 := hl.n1
  have hidx := hl.idx
  have hc := hl.eq_cmdWord
  rw [hop] at hn1 hidx hc
  cases i <;> simp_all [encode, operandsOf, Instr.opcode, Opcode.code]

/-- RDDIG decodes only from an `IDX` below 8, which is the one check of `Instr.wellFormed`. -/
theorem wellFormed_of_decode {c : Command} {i : Instr} (h : decode c = .ok i) : i.wellFormed = true := by
  obtain ⟨hl, hop, hi⟩ := (decode_eq_ok_iff c i).1 h
  have hidx := hl.idx
  rw [hop] at hidx
  cases i with
  | rddig idx =>
    obtain rfl := Instr.rddig.inj hi
    rcases hidx with h5 | ⟨-, h8⟩ | h0
    · simp [Instr.opcode, Opcode.code] at h5
    · exact decide_eq_true h8
    · rw [h0]
      rfl
  | _ => rfl

/-- Settles O2: `wellFormed_of_decode` and `encode_cmd_of_decode`; the DATA of ABSORB is the pair's (`operandsOf_of_decode`). -/
theorem encodeOfDecodeIsTheWord : Obligations.EncodeOfDecodeIsTheWord := by
  intro c i h
  refine ⟨wellFormed_of_decode h, encode_cmd_of_decode h, ?_⟩
  cases i with
  | absorb n1 data => exact (Instr.absorb.inj (operandsOf_of_decode h)).2.symm
  | _ => rfl

/-- The row of R85 in the form in which the rule has it, `CMD & mask = match`. -/
theorem decode_eq_operandsOf_iff {r : Row} (hr : r ∈ opcodeRows) (c : Command) :
    decode c = .ok (operandsOf r.op c) ↔ c.cmd &&& r.mask = r.pattern := by
  have hm : r.matchesWord c.cmd = true ↔ c.cmd &&& r.mask = r.pattern := beq_iff_eq
  rw [decode_eq_ok_iff_matches, opcode_operandsOf, ← eq_row_of_mem r hr, hm, and_iff_left rfl]

theorem decode_eq_operandsOf {c : Command} {i : Instr} (h : decode c = .ok i) : decode c = .ok (operandsOf i.opcode c) := by
  rw [operandsOf_of_decode h, h]

/-- Settles O3: `decode_eq_operandsOf_iff` at each of the seven rows. -/
theorem decodeFollowsTheMatchMaskTable : Obligations.DecodeFollowsTheMatchMaskTable := by
  intro c
  refine ⟨?_, ?_, ?_, ?_, ?_, ?_, ?_, fun _ h₁ _ h₂ m₁ m₂ => row_unique h₁ h₂ m₁ m₂⟩
  · exact decode_eq_operandsOf_iff (r := ⟨.nop, 0x00000000, 0xFFFFFFFF⟩) (by decide) c
  · exact decode_eq_operandsOf_iff (r := ⟨.init, 0x00000001, 0xFFFFFFFF⟩) (by decide) c
  · rw [← decode_eq_operandsOf_iff (r := ⟨.absorb, 0x00000002, 0xFFFFFFCF⟩) (by decide) c]
    exact ⟨fun ⟨_, _, h⟩ => decode_eq_operandsOf h, fun h => ⟨_, _, h⟩⟩
  · exact decode_eq_operandsOf_iff (r := ⟨.final, 0x00000003, 0xFFFFFFFF⟩) (by decide) c
  · rw [← decode_eq_operandsOf_iff (r := ⟨.rddig, 0x00000004, 0xFFFFF8FF⟩) (by decide) c]
    exact ⟨fun ⟨_, h⟩ => decode_eq_operandsOf h, fun h => ⟨_, h⟩⟩
  · rw [← decode_eq_operandsOf_iff (r := ⟨.rdhex, 0x00000005, 0xFFFFF0FF⟩) (by decide) c]
    exact ⟨fun ⟨_, h⟩ => decode_eq_operandsOf h, fun h => ⟨_, h⟩⟩
  · exact decode_eq_operandsOf_iff (r := ⟨.rdstat, 0x00000006, 0xFFFFFFFF⟩) (by decide) c

end Sys2Proof
end

section
/-!
PROOFS. The illegal words, the immediates, and what DATA is for (spec/30_encoding.md R81, R84, R86).
-/

namespace Sys2Proof.Machine

/-! ### The immediates (R84) -/

/-- Settles O4: an immediate is the field in the pair (`operandsOf_of_decode`), and RDDIG's is below 8 because what decodes is
well formed. -/
theorem immediatesAreUnsignedFields : Obligations.ImmediatesAreUnsignedFields := by
  intro c
  refine ⟨fun n1 data h => ?_, fun idx h => ?_, fun idx h => ?_⟩
  · obtain ⟨rfl, -⟩ := Instr.absorb.inj (operandsOf_of_decode h)
    exact ⟨rfl, Nat.le_add_left 1 _, byteCount_le _⟩
  · obtain rfl := Instr.rddig.inj (operandsOf_of_decode h)
    have h8 : (idxField c.cmd).toNat < 8 := of_decide_eq_true (wellFormed_of_decode h)
    exact ⟨rfl, h8, fun s hs => ⟨_, execRddig_of_done h8 hs, (Vector.getElem?_eq_getElem h8).symm⟩⟩
  · obtain rfl := Instr.rdhex.inj (operandsOf_of_decode h)
    refine ⟨rfl, fun s hs => ⟨_, execRdhex_of_done _ hs, bytes32_hexGroup ?_⟩⟩
    rw [toHex_digestBytes_length]
    have := (idxField c.cmd).isLt
    omega

/-! ### The illegal words (R86) -/

/-- Every well-formed command once, but for the DATA of ABSORB, which CMD does not show. -/
def wellFormedCommands : List Instr :=
  Instr.nop :: Instr.init :: (List.finRange 4).map (fun n1 => Instr.absorb (.ofFin n1) 0) ++
    Instr.final :: rddigAll ++ rdhexAll ++ [Instr.rdstat]

/-- The legal CMD words (R86). -/
def legalWords : List Word := wellFormedCommands.map fun i => (encode i).cmd

theorem wellFormed_of_mem_wellFormedCommands : ∀ i ∈ wellFormedCommands, i.wellFormed = true := by
  decide

theorem encode_cmd_mem_legalWords {i : Instr} (h : i.wellFormed = true) : (encode i).cmd ∈ legalWords := by
  cases i with
  | absorb n1 data =>
    have hn1 : ∀ n1 : BitVec 2, Instr.absorb n1 0 ∈ wellFormedCommands := by decide
    exact List.mem_map.2 ⟨.absorb n1 0, hn1 n1, rfl⟩
  | rddig idx =>
    have hidx : ∀ idx : BitVec 4, idx.toNat < 8 → Instr.rddig idx ∈ wellFormedCommands := by decide
    exact List.mem_map_of_mem (hidx idx (of_decide_eq_true h))
  | rdhex idx =>
    have hidx : ∀ idx : BitVec 4, Instr.rdhex idx ∈ wellFormedCommands := by decide
    exact List.mem_map_of_mem (hidx idx)
  | nop | init | final | rdstat => exact List.mem_map_of_mem (by decide)

theorem legalWords_nodup : legalWords.Nodup := by
  decide

theorem mem_legalWords_iff (w data : Word) : w ∈ legalWords ↔ ∃ i, decode ⟨w, data⟩ = .ok i := by
  constructor
  · intro hw
    obtain ⟨i, hi, rfl⟩ := List.mem_map.1 hw
    obtain ⟨r, hr, hm, -⟩ := encodedRow i (wellFormed_of_mem_wellFormedCommands i hi)
    exact ⟨_, decode_of_matches hr hm⟩
  · rintro ⟨i, h⟩
    rw [← show (encode i).cmd = w from encode_cmd_of_decode h]
    exact encode_cmd_mem_legalWords (wellFormed_of_decode h)

/-- `IDX[3] = 1` says that `IDX` is in 8..15. -/
theorem getLsbD_eleven_eq (cmd : Word) : cmd.getLsbD 11 = !decide ((idxField cmd).toNat < 8) := by
  have h : ∀ idx : BitVec 4, idx.getLsbD 3 = !decide (idx.toNat < 8) := by decide
  rw [← h]
  simp [idxField]

/-- R86: the five clauses together are the negation of `LegalFields`. -/
theorem not_legalFields_iff (cmd : Word) : ¬ LegalFields cmd ↔
    7 ≤ (opField cmd).toNat ∨ (reservedHighField cmd ≠ 0 ∨ reservedLowField cmd ≠ 0) ∨
      (n1Field cmd ≠ 0 ∧ opField cmd ≠ 2) ∨ (idxField cmd ≠ 0 ∧ opField cmd ≠ 4 ∧ opField cmd ≠ 5) ∨
      (opField cmd = 4 ∧ cmd.getLsbD 11 = true) := by
  rw [getLsbD_eleven_eq]
  constructor
  · intro h
    by_contra hc
    push Not at hc
    obtain ⟨hop, ⟨hhi, hlo⟩, hn1, hidx, hdig⟩ := hc
    refine h ⟨hop, hhi, hlo, ?_, ?_⟩
    · by_cases h0 : n1Field cmd = 0
      · exact .inr h0
      · exact .inl (hn1 h0)
    · by_cases h0 : idxField cmd = 0
      · exact .inr (.inr h0)
      · by_cases h4 : opField cmd = 4
        · exact .inr (.inl ⟨h4, by simpa using hdig h4⟩)
        · exact .inl (hidx h0 h4)
  · rintro h ⟨hop, hhi, hlo, hn1, hidx⟩
    rcases h with h7 | (h | h) | ⟨h, h2⟩ | ⟨h, h4, h5⟩ | ⟨h4, h8⟩
    · omega
    · exact h hhi
    · exact h hlo
    · exact hn1.elim h2 h
    · rcases hidx with h' | ⟨h', -⟩ | h'
      · exact h5 h'
      · exact h4 h'
      · exact h h'
    · rcases hidx with h' | ⟨-, h'⟩ | h'
      · simp [h4] at h'
      · simp [h'] at h8
      · simp [h'] at h8

/-- An illegal word is neither NOP nor RDSTAT (R200). -/
theorem State.accepts_iff_of_error {c : Command} {e : IllegalWord} (s : State) (h : decode c = .error e) :
    s.accepts c = true ↔ s.busy = false := by
  simp [State.accepts_iff, h]

/-- Settles O5: the clauses are `not_legalFields_iff`, and the words are counted in `legalWords`. -/
theorem illegalWordsAreExactlyTheListed : Obligations.IllegalWordsAreExactlyTheListed := by
  refine ⟨fun c => (exists_decode_eq_error_iff c).trans (not_legalFields_iff c.cmd),
    ⟨legalWords, legalWords_nodup, rfl, mem_legalWords_iff, ?_⟩,
    fun c e s h => dispatchCommand_of_error h s, fun c e s h => s.accepts_iff_of_error h⟩
  decide

/-! ### DATA (R81) -/

theorem decode_error_of_data {cmd d₁ : Word} {e : IllegalWord} (d₂ : Word) (h : decode ⟨cmd, d₁⟩ = .error e) :
    decode ⟨cmd, d₂⟩ = .error e := by
  obtain ⟨hno, rfl⟩ := decode_eq_error h
  exact decode_error_of_no_match hno

/-- Every command but ABSORB has its operands in CMD. -/
theorem operandsOf_data {op : Opcode} (h : op ≠ .absorb) (cmd d₁ d₂ : Word) :
    operandsOf op ⟨cmd, d₁⟩ = operandsOf op ⟨cmd, d₂⟩ := by
  cases op with
  | absorb => exact absurd rfl h
  | _ => rfl

theorem decode_data {cmd : Word} (h : opField cmd ≠ 2) (d₁ d₂ : Word) : decode ⟨cmd, d₁⟩ = decode ⟨cmd, d₂⟩ := by
  cases hd : decode ⟨cmd, d₁⟩ with
  | error e => exact (decode_error_of_data d₂ hd).symm
  | ok i =>
    obtain ⟨hl, hop, hi⟩ := (decode_eq_ok_iff _ _).1 hd
    have hne : i.opcode ≠ .absorb := fun ha => h (by rw [hop, ha]; rfl)
    exact ((decode_eq_ok_iff ⟨cmd, d₂⟩ i).2 ⟨hl, hop, (operandsOf_data hne cmd d₂ d₁).trans hi⟩).symm

theorem lanes_congr {n1 : BitVec 2} {d₁ d₂ : Word} (h : ∀ k, k ≤ n1.toNat → byteOf d₁ k = byteOf d₂ k) :
    lanes n1 d₁ = lanes n1 d₂ := by
  apply List.ext_getElem?
  intro k
  rw [lanes_getElem?, lanes_getElem?]
  split
  · rename_i hk
    rw [h k hk]
  · rfl

/-- ABSORB reads DATA through its lanes alone (R64). -/
theorem execAbsorb_congr {n1 : BitVec 2} {d₁ d₂ : Word} (h : lanes n1 d₁ = lanes n1 d₂) (s : State) :
    execAbsorb n1 d₁ s = execAbsorb n1 d₂ s := by
  unfold execAbsorb
  rw [h]

/-- Settles O6: an illegal word is one of CMD alone, and ABSORB reads DATA through `lanes` alone. -/
theorem dataIsOnlyTheTopLanesOfAbsorb : Obligations.DataIsOnlyTheTopLanesOfAbsorb := by
  refine ⟨fun cmd d₁ d₂ e h => decode_error_of_data d₂ h, fun cmd d₁ d₂ s h => ?_,
    fun n1 d₁ d₂ s h => execAbsorb_congr (lanes_congr h) s⟩
  unfold dispatchCommand
  rw [decode_data h d₁ d₂]

/-! ### The words of the spec (R85, R89) -/

/-- Settles O7 by evaluating the decoder. -/
theorem wordsOfTheSpecDecode : Obligations.WordsOfTheSpecDecode := by
  exact ⟨rfl, rfl, rfl, rfl, rfl, rfl, rfl, rfl, rfl⟩

end Sys2Proof.Machine
end

section
/-!
PROOFS. The pseudo-instructions of the assembler (spec/30_encoding.md R90): which bytes the ABSORBs of MSG carry.
-/

namespace Sys2Proof.Machine

/-! ### The bytes that MSG carries (R64, R90) -/

theorem messageOf_cons (p : BitVec 2 × Word) (parts : List (BitVec 2 × Word)) :
    messageOf (p :: parts) = lanes p.1 p.2 ++ messageOf parts := rfl

theorem messageOf_msg (m : List Byte) : messageOf (msg m) = m := by
  induction m using msg.induct with
  | case1 => rfl
  | case2 b0 => rw [msg, messageOf_cons, lanes_be32]; rfl
  | case3 b0 b1 => rw [msg, messageOf_cons, lanes_be32]; rfl
  | case4 b0 b1 b2 => rw [msg, messageOf_cons, lanes_be32]; rfl
  | case5 b0 b1 b2 b3 rest ih => rw [msg, messageOf_cons, lanes_be32, ih]; rfl

theorem msg_length (m : List Byte) : (msg m).length = (m.length + 3) / 4 := by
  induction m using msg.induct with
  | case5 b0 b1 b2 b3 rest ih =>
    simp only [msg, List.length_cons, ih]
    omega
  | _ => simp [msg]

/-! ### One ABSORB of MSG (R90) -/

/-- The operands of an ABSORB that carries the next bytes of `m`, at most four of them, with the unused lanes 0. -/
def firstPart (m : List Byte) : BitVec 2 × Word :=
  (BitVec.ofNat 2 (min 4 m.length - 1), be32 (m.getD 0 0) (m.getD 1 0) (m.getD 2 0) (m.getD 3 0))

theorem msg_eq_cons {m : List Byte} (h : m ≠ []) : msg m = firstPart m :: msg (m.drop 4) := by
  rcases m with _ | ⟨b0, _ | ⟨b1, _ | ⟨b2, _ | ⟨b3, rest⟩⟩⟩⟩
  · exact absurd rfl h
  · rfl
  · rfl
  · rfl
  · simp [msg, firstPart]

/-- Command `q` of MSG is that of the bytes from `4 * q` on, of which there are some. -/
theorem msg_getElem? {m : List Byte} {q : Nat} {p : BitVec 2 × Word} (h : (msg m)[q]? = some p) :
    p = firstPart (m.drop (4 * q)) ∧ m.drop (4 * q) ≠ [] := by
  induction q generalizing m with
  | zero =>
    cases m with
    | nil => simp [msg] at h
    | cons b bs =>
      rw [msg_eq_cons (List.cons_ne_nil b bs)] at h
      exact ⟨(Option.some.inj h).symm, List.cons_ne_nil b bs⟩
  | succ q ih =>
    have hm : m ≠ [] := by
      rintro rfl
      simp [msg] at h
    rw [msg_eq_cons hm, List.getElem?_cons_succ] at h
    rw [show 4 * (q + 1) = 4 + 4 * q by omega, ← List.drop_drop]
    exact ih h

theorem firstPart_count {m : List Byte} (h : m ≠ []) : (firstPart m).1.toNat + 1 = min 4 m.length := by
  have := List.length_pos_iff.2 h
  simp only [firstPart, BitVec.toNat_ofNat]
  omega

theorem byteOf_firstPart (m : List Byte) {k : Nat} (hk : k < 4) : byteOf (firstPart m).2 k = m.getD k 0 := by
  obtain ⟨h0, h1, h2, h3⟩ := byteOf_be32 (m.getD 0 0) (m.getD 1 0) (m.getD 2 0) (m.getD 3 0)
  rcases k with _ | _ | _ | _ | k
  · exact h0
  · exact h1
  · exact h2
  · exact h3
  · omega

/-- Lane `k` of command `q` is byte `4 * q + k`, or 0 where the message has none. -/
theorem byteOf_firstPart_drop {m : List Byte} {q k : Nat} (h : m.drop (4 * q) ≠ []) (hk : k < 4) :
    byteOf (firstPart (m.drop (4 * q))).2 k =
      if k ≤ (firstPart (m.drop (4 * q))).1.toNat then m.getD (4 * q + k) 0 else 0 := by
  have hc := firstPart_count h
  have hd : (m.drop (4 * q)).getD k 0 = m.getD (4 * q + k) 0 := by
    simp [List.getD_eq_getElem?_getD, List.getElem?_drop]
  rw [byteOf_firstPart _ hk]
  split
  · exact hd
  · exact List.getD_eq_default _ _ (by omega)

/-! ### ABSORBB (R90) -/

/-- One byte in the top lane; with the width written as the sum of the parts' widths, as the library's lemmas about `++` have it. -/
theorem be32_zeros (b : Byte) : be32 b 0 0 0 = b.zeroExtend 32 <<< 24 := by
  have h : b ++ 0#8 ++ 0#8 ++ 0#8 = b.zeroExtend (8 + 8 + 8 + 8) <<< 24 := by
    have := b.isLt
    apply BitVec.eq_of_toNat_eq
    simp only [BitVec.toNat_append, BitVec.toNat_shiftLeft, BitVec.truncate_eq_setWidth, BitVec.toNat_setWidth,
      BitVec.toNat_ofNat, Nat.zero_mod, Nat.or_zero, Nat.shiftLeft_eq]
    omega
  exact h

/-- Settles O59: command `q` of MSG is `firstPart` of the bytes from `4 * q` on (`msg_getElem?`). -/
theorem msgCarriesTheMessage : Obligations.MsgCarriesTheMessage := by
  refine ⟨fun m => ⟨messageOf_msg m, msg_length m, fun q p h => ?_⟩, fun m => rfl,
    fun b => congrArg (Command.mk 2) (be32_zeros b), fun w => rfl⟩
  obtain ⟨rfl, hne⟩ := msg_getElem? h
  exact ⟨by rw [firstPart_count hne, List.length_drop], fun k hk => byteOf_firstPart_drop hne hk⟩

end Sys2Proof.Machine
end

section
/-!
PROOFS. The padder (spec/41_padder.md): the bytes of the padded message, the number of its blocks, and the padded tail.
-/

namespace Sys2Proof.Machine

/-! ### The length field (R13, R36, R100) -/

/-- Byte `k` of a word as a number, counted from the least significant one. -/
theorem toNat_extractLsb'_byte (x : DWord) (k : Nat) : (x.extractLsb' k 8).toNat = x.toNat / 2 ^ k % 256 := by
  rw [BitVec.extractLsb'_toNat, Nat.shiftRight_eq_div_pow]

/-- One step of reading big-endian: the byte at `2 ^ k` joins the bytes above it. -/
theorem div_mul_add_byte (n k : Nat) : n / 2 ^ (k + 8) * 256 + n / 2 ^ k % 256 = n / 2 ^ k := by
  rw [pow_add, ← Nat.div_div_eq_div_mul]
  exact Nat.div_add_mod' _ 256

/-- BYTES64 read big-endian is the word itself. -/
theorem foldl_bytes64 (x : DWord) : (bytes64 x).foldl (fun acc b => acc * 256 + b.toNat) 0 = x.toNat := by
  have htop : 0 * 256 + x.toNat / 2 ^ 56 % 256 = x.toNat / 2 ^ 56 := by
    have := x.isLt
    omega
  simp only [bytes64, List.foldl_cons, List.foldl_nil, toNat_extractLsb'_byte]
  rw [htop, div_mul_add_byte _ 48, div_mul_add_byte _ 40, div_mul_add_byte _ 32, div_mul_add_byte _ 24,
    div_mul_add_byte _ 16, div_mul_add_byte _ 8, div_mul_add_byte _ 0, pow_zero, Nat.div_one]

theorem bitLength_toNat {n : Nat} (h : n ≤ 2 ^ 61 - 1) : (bitLength n).toNat = 8 * n := by
  rw [bitLength, BitVec.toNat_ofNat, Nat.mod_eq_of_lt (by omega)]

/-! ### The padded message (R100) -/

theorem pad_eq (m : List Byte) :
    pad m = m ++ [0x80] ++ List.replicate (zeroCount m.length) 0 ++ bytes64 (bitLength m.length) := by
  simp only [pad, padding, List.append_assoc]

theorem zeroCount_of_mod_55 {n : Nat} (h : n % 64 = 55) : zeroCount n = 0 := by rw [zeroCount, h]

theorem zeroCount_of_mod_56 {n : Nat} (h : n % 64 = 56) : zeroCount n = 63 := by rw [zeroCount, h]

/-- Settles O17: the zeros are `zeroCount m.length`, and the length field is BYTES64 of the bit length. -/
theorem padIsMessageMarkerZerosLength : Obligations.PadIsMessageMarkerZerosLength :=
  ⟨fun m h => ⟨zeroCount m.length, bytes64 (bitLength m.length), pad_eq m, zeroCount_le _, zeroCount_spec _,
      bytes64_length _, (foldl_bytes64 _).trans (bitLength_toNat h), zeroCount_of_mod_55, zeroCount_of_mod_56⟩,
    pad_eq []⟩

/-! ### The number of blocks (R101, R103) -/

theorem nblocks_of_fits {n : Nat} (h : n % 64 ≤ 55) : nblocks n = n / 64 + 1 := by
  unfold nblocks
  omega

theorem nblocks_of_spills {n : Nat} (h : 56 ≤ n % 64) : nblocks n = n / 64 + 2 := by
  unfold nblocks
  omega

/-- Settles O18: the length and the number of blocks are those of `nblocks` (R101), which counts one block more than the full
ones, or two. -/
theorem paddedLengthGivesTheBlockCount : Obligations.PaddedLengthGivesTheBlockCount := fun m =>
  ⟨pad_length m, blocks_pad_length m, fun h => (blocks_pad_length m).trans (nblocks_of_fits h),
    fun h => (blocks_pad_length m).trans (nblocks_of_spills h)⟩

/-! ### The bytes of blocks (R106) -/

/-- The first `k` blocks of a sequence hold its first `64 * k` bytes. -/
theorem flatMap_blockAt {p : List Byte} {k : Nat} (h : 64 * k ≤ p.length) :
    ((List.range k).map (blockAt p)).flatMap (fun b => b.toList) = p.take (64 * k) := by
  induction k with
  | zero => rfl
  | succ k ih =>
    rw [List.range_succ, List.map_append, List.flatMap_append, ih (by omega), List.map_singleton, List.flatMap_singleton,
      blockAt_toList h, Nat.mul_succ, List.take_add]

/-- Whole blocks, put together again. -/
theorem flatMap_blocks {p : List Byte} (h : p.length % 64 = 0) : (blocks p).flatMap (fun b => b.toList) = p := by
  have hlen : 64 * (p.length / 64) = p.length := by omega
  rw [blocks, flatMap_blockAt hlen.le, hlen, List.take_length]

/-- The blocks of the first `64 * k` bytes are the first `k` blocks. -/
theorem blocks_take {m : List Byte} {k : Nat} (h : 64 * k ≤ m.length) :
    blocks (m.take (64 * k)) = (List.range k).map (blockAt m) := by
  have hlen : (m.take (64 * k)).length = 64 * k := List.length_take_of_le h
  rw [blocks, hlen, Nat.mul_div_cancel_left k (by decide)]
  refine List.map_congr_left fun q hq => ?_
  have hq' : q < k := List.mem_range.1 hq
  calc blockAt (m.take (64 * k)) q
      = blockAt (m.take (64 * k) ++ m.drop (64 * k)) q := (blockAt_append_left (by omega)).symm
    _ = blockAt m q := by rw [List.take_append_drop]

/-! ### The padded tail (R104, R105) -/

theorem padded_length_mod (p : List Byte) (l : DWord) : (p ++ padding p.length l).length % 64 = 0 := by
  have h := zeroCount_spec p.length
  rw [List.length_append, padding_length]
  omega

theorem zeroCount_of_lt {n : Nat} (h : n < 64) : zeroCount n = (119 - n) % 64 := by rw [zeroCount, Nat.mod_eq_of_lt h]

/-- Settles O19: the tail is the blocks of the padded partial block (`padTail_eq_blocks`), whose length is a multiple of 64. -/
theorem padTailIsOneOrTwoBlocks : Obligations.PadTailIsOneOrTwoBlocks := by
  intro p l h
  refine ⟨?_, fun h55 => congrArg List.length (padTail_of_le l h55), fun h56 => congrArg List.length (padTail_of_gt l h56)⟩
  rw [padTail_eq_blocks l h, flatMap_blocks (padded_length_mod p l), padding, zeroCount_of_lt h]
  simp only [List.append_assoc]

/-- Padding changes only what follows the last full block (R105). -/
theorem pad_eq_full_append_tail (m : List Byte) :
    pad m = m.take (64 * (m.length / 64)) ++
      (m.drop (64 * (m.length / 64)) ++ padding (m.drop (64 * (m.length / 64))).length (bitLength m.length)) := by
  have hlen : (m.drop (64 * (m.length / 64))).length = m.length % 64 := by
    rw [List.length_drop]
    omega
  rw [hlen, padding_mod, ← List.append_assoc, List.take_append_drop, pad]

/-- Settles O20: the padded message is the full blocks and then the padded partial block (`pad_eq_full_append_tail`). -/
theorem fullBlocksThenTailAreThePaddedBlocks : Obligations.FullBlocksThenTailAreThePaddedBlocks := by
  intro m _
  have hfull : 64 * (m.length / 64) ≤ m.length := Nat.mul_div_le _ _
  have htail : (m.drop (64 * (m.length / 64))).length < 64 := by
    rw [List.length_drop]
    omega
  rw [pad_eq_full_append_tail, blocks_append (List.length_take_of_le hfull), blocks_take hfull,
    ← padTail_eq_blocks _ htail]
  rfl

end Sys2Proof.Machine
end

section
/-!
PROOFS. The message scheduler (spec/42_scheduler.md): the bits of the small sigmas, and the words of the schedule.
-/

namespace Sys2Proof.Machine

/-! ### Rotation and shift, bit by bit (R12) -/

/-- R12's rotation is the library's. -/
theorem rotr_eq_rotateRight {n : Nat} (hn : n < 32) (x : Word) : rotr n x = x.rotateRight n := by
  rw [rotr, BitVec.rotateRight_def, Nat.mod_eq_of_lt hn]

/-- R12: bit `i` of the rotation is bit `(i + n) mod 32` of `x`. -/
theorem getLsbD_rotr {n i : Nat} (hn : n < 32) (hi : i < 32) (x : Word) :
    (rotr n x).getLsbD i = x.getLsbD ((i + n) % 32) := by
  rw [rotr_eq_rotateRight hn, BitVec.getLsbD_rotateRight, Nat.mod_eq_of_lt hn]
  by_cases hlow : i < 32 - n
  · rw [decide_eq_true hlow, cond_true, Nat.add_comm n i, Nat.mod_eq_of_lt (by omega)]
  · have hwrap : (i + n) % 32 = i - (32 - n) := by omega
    rw [decide_eq_false hlow, cond_false, hwrap, decide_eq_true hi, Bool.true_and]

/-- R12: zeros enter at bit 31. -/
theorem getLsbD_shr (n i : Nat) (x : Word) : (shr n x).getLsbD i = (decide (i + n < 32) && x.getLsbD (i + n)) := by
  rw [shr, BitVec.getLsbD_ushiftRight, Nat.add_comm n i]
  by_cases hin : i + n < 32
  · rw [decide_eq_true hin, Bool.true_and]
  · rw [decide_eq_false hin, Bool.false_and, BitVec.getLsbD_of_ge x _ (by omega)]

/-! ### The small sigmas (R120, R121) -/

theorem getLsbD_smallSigma0 (x : Word) {i : Nat} (hi : i < 32) : (smallSigma0 x).getLsbD i =
    (x.getLsbD ((i + 7) % 32) ^^ x.getLsbD ((i + 18) % 32) ^^ (decide (i + 3 < 32) && x.getLsbD (i + 3))) := by
  rw [smallSigma0, BitVec.getLsbD_xor, BitVec.getLsbD_xor, getLsbD_rotr (by decide) hi, getLsbD_rotr (by decide) hi,
    getLsbD_shr]

theorem getLsbD_smallSigma1 (x : Word) {i : Nat} (hi : i < 32) : (smallSigma1 x).getLsbD i =
    (x.getLsbD ((i + 17) % 32) ^^ x.getLsbD ((i + 19) % 32) ^^ (decide (i + 10 < 32) && x.getLsbD (i + 10))) := by
  rw [smallSigma1, BitVec.getLsbD_xor, BitVec.getLsbD_xor, getLsbD_rotr (by decide) hi, getLsbD_rotr (by decide) hi,
    getLsbD_shr]

theorem smallSigma0_zero : smallSigma0 0 = 0 := by decide

theorem smallSigma1_zero : smallSigma1 0 = 0 := by decide

/-- Settles O8: the bits are those of R12's rotations and shift; the rules' corner cases and examples are evaluated. -/
theorem smallSigmasMixRotatedAndShiftedBits : Obligations.SmallSigmasMixRotatedAndShiftedBits :=
  ⟨fun x _ hi => getLsbD_smallSigma0 x hi, fun x _ hi => getLsbD_smallSigma1 x hi,
    smallSigma0_zero, by decide, by decide, smallSigma1_zero, by decide, by decide⟩

/-! ### The schedule (R122) -/

theorem blockWord_zeroBlock (j : Fin 16) : blockWord (Vector.replicate 64 0) j = 0 := by
  simp only [blockWord, Vector.getElem_replicate]
  rfl

/-- R122's corner case: the recurrence keeps zeros, since both small sigmas do. -/
theorem schedule_zeroBlock (j : Nat) (h : j < 64) : (schedule (Vector.replicate 64 0))[j] = 0 := by
  induction j using Nat.strong_induction_on with
  | _ j ih =>
    by_cases hj : j < 16
    · rw [schedule_of_lt _ _ hj, blockWord_zeroBlock]
    · rw [schedule_of_ge _ _ (by omega) h, ih (j - 2) (by omega), ih (j - 7) (by omega), ih (j - 15) (by omega),
        ih (j - 16) (by omega), smallSigma0_zero, smallSigma1_zero]
      rfl

/-- A message of at most 55 bytes is padded to one block (R101, R103). -/
theorem blocks_pad_of_le {m : List Byte} (h : m.length ≤ 55) : blocks (pad m) = [blockAt (pad m) 0] := by
  have hone : (pad m).length / 64 = 1 := by
    rw [pad_length, nblocks]
    omega
  rw [blocks, hone]
  rfl

/-- R122's example: the 16 big-endian words of the padded one-block message "Mozart". -/
theorem blockWord_pad_mozart : ∀ j : Fin 16, blockWord (blockAt (pad [0x4D, 0x6F, 0x7A, 0x61, 0x72, 0x74]) 0) j =
    #v[0x4D6F7A61, 0x72748000, 0, 0, 0, 0, 0, 0, 0, 0, 0, 0, 0, 0, 0, 0x00000030][j] := by
  decide

/-- Settles O11: `schedule_of_lt` and `schedule_of_ge` are the rule's two loops; the example's words are words of its block. -/
theorem scheduleFollowsTheRecurrence : Obligations.ScheduleFollowsTheRecurrence := by
  refine ⟨schedule_of_lt, schedule_of_ge, schedule_zeroBlock, fun blk hblk => ?_⟩
  rw [blocks_pad_of_le (by decide), List.mem_singleton] at hblk
  subst hblk
  have hword (j : Nat) (h : j < 16) := (schedule_of_lt _ j h).trans (blockWord_pad_mozart ⟨j, h⟩)
  refine ⟨hword 0 (by decide), hword 1 (by decide), fun j hj hj2 => (hword j (by omega)).trans ?_, hword 15 (by decide)⟩
  interval_cases j <;> rfl

end Sys2Proof.Machine
end

section
/-!
PROOFS. The round processor (spec/43_round_processor.md): its functions bit by bit and word by word, the three steps of CORE, and
the steps that compress one block and empty the queue.
-/

namespace Sys2Proof.Machine

/-! ### The big sigmas (R140, R141) -/

theorem getLsbD_bigSigma0 (x : Word) {i : Nat} (hi : i < 32) : (bigSigma0 x).getLsbD i =
    (x.getLsbD ((i + 2) % 32) ^^ x.getLsbD ((i + 13) % 32) ^^ x.getLsbD ((i + 22) % 32)) := by
  rw [bigSigma0, BitVec.getLsbD_xor, BitVec.getLsbD_xor, getLsbD_rotr (by decide) hi, getLsbD_rotr (by decide) hi,
    getLsbD_rotr (by decide) hi]

theorem getLsbD_bigSigma1 (x : Word) {i : Nat} (hi : i < 32) : (bigSigma1 x).getLsbD i =
    (x.getLsbD ((i + 6) % 32) ^^ x.getLsbD ((i + 11) % 32) ^^ x.getLsbD ((i + 25) % 32)) := by
  rw [bigSigma1, BitVec.getLsbD_xor, BitVec.getLsbD_xor, getLsbD_rotr (by decide) hi, getLsbD_rotr (by decide) hi,
    getLsbD_rotr (by decide) hi]

/-- Settles O9: the bits are those of R12's rotations; the rules' corner cases and examples are evaluated. -/
theorem bigSigmasMixRotatedBits : Obligations.BigSigmasMixRotatedBits :=
  ⟨fun x _ hi => getLsbD_bigSigma0 x hi, fun x _ hi => getLsbD_bigSigma1 x hi,
    by decide, by decide, by decide, by decide, by decide, by decide⟩

/-! ### Choose and majority (R142, R143) -/

/-- R142: the bit of `x` selects. -/
theorem getLsbD_ch (x y z : Word) (i : Nat) :
    (ch x y z).getLsbD i = if x.getLsbD i then y.getLsbD i else z.getLsbD i := by
  rw [ch, BitVec.getLsbD_xor, BitVec.getLsbD_and, BitVec.getLsbD_and, BitVec.getLsbD_not]
  by_cases hi : i < 32
  · cases x.getLsbD i <;> simp [hi]
  · simp [BitVec.getLsbD_of_ge _ i (Nat.le_of_not_lt hi)]

/-- R143: the value of at least two of the three bits. -/
theorem getLsbD_maj (x y z : Word) (i : Nat) :
    (maj x y z).getLsbD i = decide (2 ≤ (x.getLsbD i).toNat + (y.getLsbD i).toNat + (z.getLsbD i).toNat) := by
  rw [maj, BitVec.getLsbD_xor, BitVec.getLsbD_xor, BitVec.getLsbD_and, BitVec.getLsbD_and, BitVec.getLsbD_and]
  generalize x.getLsbD i = a, y.getLsbD i = b, z.getLsbD i = c
  revert a b c
  decide

theorem ch_allOnes (y z : Word) : ch 0xFFFFFFFF y z = y := by
  change ch (BitVec.allOnes 32) y z = y
  rw [ch, BitVec.allOnes_and, BitVec.not_allOnes, BitVec.zero_and, BitVec.xor_zero]

theorem ch_zero (y z : Word) : ch 0 y z = z := by
  change ch 0#32 y z = z
  rw [ch, BitVec.zero_and, BitVec.not_zero, BitVec.allOnes_and, BitVec.zero_xor]

theorem maj_self (x z : Word) : maj x x z = x := by
  rw [maj, BitVec.and_self, BitVec.xor_assoc, BitVec.xor_self, BitVec.xor_zero]

theorem maj_zero_allOnes (z : Word) : maj 0 0xFFFFFFFF z = z := by
  change maj 0#32 (BitVec.allOnes 32) z = z
  rw [maj, BitVec.allOnes_and, BitVec.zero_and, BitVec.zero_and, BitVec.xor_self, BitVec.zero_xor]

/-- Settles O10: the bits are `getLsbD_ch` and `getLsbD_maj`; the rules' examples are evaluated. -/
theorem chooseAndMajorityActBitwise : Obligations.ChooseAndMajorityActBitwise :=
  ⟨getLsbD_ch, getLsbD_maj, fun y z => ⟨ch_allOnes y z, ch_zero y z⟩, fun x z => ⟨maj_self x z, maj_zero_allOnes z⟩,
    by decide, by decide⟩

/-! ### One round, and the mixer (R145, R146) -/

/-- R145's wrap case: four summands 1 past `0xFFFFFFFF`. -/
theorem roundT1_wraps {e f g k w : Word} (he : bigSigma1 e = 1) (hc : ch e f g = 1) (hk : k = 1) (hw : w = 1)
    (a b c d : Word) : roundT1 #v[a, b, c, d, e, f, g, 0xFFFFFFFF] k w = 3 := by
  calc roundT1 #v[a, b, c, d, e, f, g, 0xFFFFFFFF] k w
      = 0xFFFFFFFF + bigSigma1 e + ch e f g + k + w := rfl
    _ = 0xFFFFFFFF + 1 + 1 + 1 + 1 := by rw [he, hc, hk, hw]
    _ = 3 := by decide

/-- Settles O12: the model's round takes its operands by index, as the rule names them; the example is evaluated. -/
theorem roundRenamesAndAddsT1T2 : Obligations.RoundRenamesAndAddsT1T2 :=
  ⟨fun _ _ _ _ _ _ _ _ _ _ => rfl, fun _ _ _ _ _ he hc hk hw => roundT1_wraps he hc hk hw, by decide, by decide⟩

@[simp] theorem mix_getElem (hin v : Words8) {i : Nat} (h : i < 8) : (mix hin v)[i] = hin[i] + v[i] := by
  simp [mix]

/-- Settles O13: word `i` is the sum of the two words `i` (`mix_getElem`). -/
theorem mixAddsWordByWord : Obligations.MixAddsWordByWord := by
  refine ⟨fun hin v i h => ?_, fun hin v hh hv => ?_⟩
  · rw [mix_getElem hin v h, BitVec.toNat_add]
  · rw [mix_getElem hin v (by decide), hh, hv]
    decide

/-! ### Compression (R147) -/

/-- R147's loop as a fold, for any number of rounds that the tables have. -/
theorem rounds_eq_foldl (v : Words8) (w : Words64) {n : Nat} (hn : n ≤ 64) :
    rounds v w n = (List.finRange n).foldl (fun v t => round v kRom[t.castLE hn] w[t.castLE hn]) v := by
  induction n with
  | zero => rfl
  | succ n ih =>
    rw [rounds_succ v w hn, ih (Nat.le_of_succ_le hn), List.finRange_succ_last, List.foldl_concat, List.foldl_map]
    rfl

/-- R147's example. -/
theorem compress_emptyMessage : ∀ blk ∈ blocks (pad []), compress iv (schedule blk) =
    #v[0xE3B0C442, 0x98FC1C14, 0x9AFBF4C8, 0x996FB924, 0x27AE41E4, 0x649B934C, 0xA495991B, 0x7852B855] := by
  rw [blocks_pad_of_le (by decide), List.forall_mem_singleton]
  decide +kernel

/-- Settles O14: the loop is `rounds_eq_foldl` with all 64 rounds. -/
theorem compressIsSixtyFourRoundsThenMix : Obligations.CompressIsSixtyFourRoundsThenMix :=
  ⟨fun hin w => congrArg (mix hin) (rounds_eq_foldl hin w le_rfl), compress_emptyMessage⟩

/-! ### The steps of CORE (R148-R150) -/

/-- Settles O40: BUSY is 1, since `pend` keeps its head. -/
theorem cstartLoadsTheHeadBlock : Obligations.CstartLoadsTheHeadBlock := by
  intro s blk rest hr hp
  refine ⟨_, coreStep_cstart hr hp, rfl, ?_⟩
  simp [State.busy, hp]

/-- Settles O41: with `run = 1`, `t` says whether the step is `coreStep_cround` or `coreStep_cmix`. -/
theorem croundDoesRoundT : Obligations.CroundDoesRoundT := by
  refine ⟨fun s hn hr => ⟨_, rfl, coreStep_cround hr hn⟩, fun s t hr h => ⟨fun hn => ?_, fun h64 => ?_⟩⟩
  · rw [coreStep_cround hr hn] at h
    obtain rfl := Host.Outcome.next.inj h
    exact ⟨hr, rfl⟩
  · rw [coreStep_cmix hr h64] at h
    obtain rfl := Host.Outcome.next.inj h
    exact ⟨rfl, rfl⟩

/-- R150's phase, in the words of the rule. -/
theorem phaseAfterMix_eq (p : Phase) (rest : List Block) :
    phaseAfterMix p rest = if rest = [] ∧ p = .finalizing then .done else p := by
  simp [phaseAfterMix]

/-- R150 where a block is queued, as it is whenever CORE runs one (`State.Inv.runBusy`). -/
theorem coreStep_cmix_cons {s : State} {blk : Block} {rest : List Block} (hr : s.run = true) (ht : s.t.val = 64)
    (hp : s.pend = blk :: rest) :
    coreStep s = .next { s with
      chainH := mix s.chainH s.v, pend := rest, run := false,
      phase := if rest = [] ∧ s.phase = .finalizing then .done else s.phase } := by
  rw [coreStep_cmix hr ht, hp, List.tail_cons, phaseAfterMix_eq]

/-- Settles O42: the next state is that of `coreStep_cmix_cons`; BUSY, DVALID and PHASE are read off it. -/
theorem cmixRetiresTheHeadBlock : Obligations.CmixRetiresTheHeadBlock := by
  intro s blk rest hr ht hp
  refine ⟨_, coreStep_cmix_cons hr (by rw [ht]; rfl) hp, rfl, ?_, fun hf hrest => ?_⟩
  · simp [State.busy]
  · simp [State.dvalid, Phase.code, hf, hrest]

/-- A CORE step takes nothing from `pend` but its head (R148, R150). -/
theorem coreStep_pend {s t : State} (h : coreStep s = .next t) : t.pend = s.pend ∨ t.pend = s.pend.tail := by
  rcases coreStep_cases h with ⟨-, -, rfl⟩ | ⟨-, _, _, -, rfl⟩ | ⟨-, _, rfl⟩ | ⟨-, -, rfl⟩
  · exact .inl rfl
  · exact .inl rfl
  · exact .inl rfl
  · exact .inr rfl

/-- Settles O45: the frame, `phase` (`coreStep_phase`) and `pend` (`coreStep_pend`). -/
theorem coreStepsLeaveTheRestUnchanged : Obligations.CoreStepsLeaveTheRestUnchanged :=
  fun _ _ h => ⟨coreStep_frame h, (coreStep_phase h).imp_right fun ⟨_, _, hf, hd, _⟩ => ⟨hf, hd⟩, coreStep_pend h⟩

/-! ### Runs of CORE (R151, R152) -/

/-- The rest of a running block: the rounds it has left, and CMIX. -/
theorem coreStepN_finish {s : State} {h : Words8} {blk : Block} {rest : List Block} {n : Nat} (hr : s.run = true)
    (hn : s.t.val + n = 64) (hv : s.v = rounds h s.w s.t.val) (hp : s.pend = blk :: rest) :
    coreStepN (n + 1) s = .next { s with
      chainH := mix s.chainH (rounds h s.w 64), pend := rest, run := false,
      phase := if rest = [] ∧ s.phase = .finalizing then .done else s.phase,
      t := 64, v := rounds h s.w 64 } := by
  have hrounds : coreStepN n s = .next { s with v := rounds h s.w 64, t := 64 } := by
    rw [coreStepN_rounds hr hn.le hv]
    simp only [hn]
    rfl
  rw [coreStepN_add hrounds, coreStepN_succ (coreStep_cmix_cons (by exact hr) rfl (by exact hp))]
  rfl

/-- R151: CSTART, 64 rounds and CMIX compress the head block. -/
theorem coreStepN_compress {s : State} {blk : Block} {rest : List Block} (hr : s.run = false) (hp : s.pend = blk :: rest) :
    coreStepN 66 s = .next { s with
      chainH := compress s.chainH (schedule blk), pend := rest, run := false,
      phase := if rest = [] ∧ s.phase = .finalizing then .done else s.phase,
      t := 64, v := rounds s.chainH (schedule blk) 64, w := schedule blk } := by
  rw [coreStepN_succ (coreStep_cstart hr hp), coreStepN_finish (h := s.chainH) (n := 64) rfl rfl rfl (by exact hp)]
  rfl

/-- Settles O43: the state that `coreStepN_compress` writes out. -/
theorem sixtySixCoreStepsCompressOneBlock : Obligations.SixtySixCoreStepsCompressOneBlock :=
  fun _ _ _ hr hp => ⟨_, coreStepN_compress hr hp, rfl⟩

/-- Each queued block takes 66 steps. -/
theorem coreStepN_drains {s : State} {q : List Block} (hr : s.run = false) (hp : s.pend = q) :
    ∃ t, coreStepN (66 * q.length) s = .next t ∧ t.pend = [] := by
  induction q generalizing s with
  | nil => exact ⟨s, rfl, hp⟩
  | cons blk rest ih =>
    obtain ⟨u, hu, hur, hup⟩ : ∃ u, coreStepN 66 s = .next u ∧ u.run = false ∧ u.pend = rest :=
      ⟨_, coreStepN_compress hr hp, rfl, rfl⟩
    obtain ⟨t, ht, hdone⟩ := ih hur hup
    refine ⟨t, ?_, hdone⟩
    rw [List.length_cons, Nat.mul_succ, Nat.add_comm, coreStepN_add hu, ht]

/-- Settles O44: a running block has `64 - t` rounds and CMIX left, and each block behind it takes 66 steps. -/
theorem coreEmptiesTheQueueWithin132Steps : Obligations.CoreEmptiesTheQueueWithin132Steps := by
  intro s hs
  have hshort := hs.pendShort
  cases hr : s.run with
  | false =>
    obtain ⟨t, ht, hdone⟩ := coreStepN_drains hr rfl
    exact ⟨_, t, by omega, ht, hdone⟩
  | true =>
    obtain ⟨blk, rest, hp, hw, hv⟩ := hs.running hr
    rw [← hw] at hv
    obtain ⟨u, hu, hur, hup⟩ : ∃ u, coreStepN (64 - s.t.val + 1) s = .next u ∧ u.run = false ∧ u.pend = rest :=
      ⟨_, coreStepN_finish hr (by omega) hv hp, rfl, rfl⟩
    obtain ⟨t, ht, hdone⟩ := coreStepN_drains hur hup
    refine ⟨_, t, ?_, (coreStepN_add hu).trans ht, hdone⟩
    rw [hp, List.length_cons] at hshort
    omega

end Sys2Proof.Machine
end

section
/-!
PROOFS. The hex encoder and the hex string of a message (spec/44_digest_hex.md R182-R185).
-/

namespace Sys2Proof.Machine

/-! ### Where a character comes from (R185) -/

/-- The nibbles of byte `k` of a word, as bits of the word. -/
theorem extractLsb'_byteOf (w : Word) (k : Nat) {start : Nat} (h : start + 4 ≤ 8) :
    (byteOf w k).extractLsb' start 4 = w.extractLsb' (24 - 8 * k + start) 4 := by
  apply BitVec.eq_of_getLsbD_eq
  intro i hi
  have hlt : start + i < 8 := by omega
  simp only [byteOf, BitVec.getLsbD_extractLsb', hlt, decide_true, Bool.true_and, Nat.add_assoc]

/-- Eight characters come from each word, two from each of its bytes. -/
theorem toHex_digestBytes_getElem? (h : Words8) {i j : Nat} (hi : i < 8) (hj : j < 8) :
    (toHex (digestBytes h))[8 * i + j]? = some (hexchar (h[i].extractLsb' (28 - 4 * j) 4)) := by
  obtain ⟨k, hk, rfl | rfl⟩ : ∃ k < 4, j = 2 * k ∨ j = 2 * k + 1 := ⟨j / 2, by omega, by omega⟩
  · have hchar := (toHex_getElem? (digestBytes_getElem? h hi hk)).1
    rwa [extractLsb'_byteOf _ _ (by omega), show 2 * (4 * i + k) = 8 * i + 2 * k by omega,
      show 24 - 8 * k + 4 = 28 - 4 * (2 * k) by omega] at hchar
  · have hchar := (toHex_getElem? (digestBytes_getElem? h hi hk)).2
    rwa [extractLsb'_byteOf _ _ (by omega), show 2 * (4 * i + k) + 1 = 8 * i + (2 * k + 1) by omega,
      show 24 - 8 * k + 0 = 28 - 4 * (2 * k + 1) by omega] at hchar

/-- Settles O23: character `c` is character `c % 8` of word `c / 8`. -/
theorem hexCharacterComesFromItsNibble : Obligations.HexCharacterComesFromItsNibble := by
  intro h c hc
  have hchar := toHex_digestBytes_getElem? h (i := c / 8) (j := c % 8) (by omega) (by omega)
  rwa [Nat.div_add_mod] at hchar

/-! ### The characters of a message's hex string (R184) -/

/-- Settles O24: the lengths are those of any eight words' bytes, and each character is a `hexchar` (`mem_toHex`). -/
theorem hexStringHasSixtyFourCharacters : Obligations.HexStringHasSixtyFourCharacters := by
  refine fun m => ⟨rfl, toHex_digestBytes_length _, digestBytes_length _, fun x hx => ?_⟩
  obtain ⟨n, rfl⟩ := mem_toHex hx
  exact hexchar_range n

/-! ### The encoder (R182, R183) -/

theorem hexchar_toNat_of_le {n : BitVec 4} (h : n.toNat ≤ 9) : (hexchar n).toNat = 0x30 + n.toNat := by
  revert n; decide

theorem hexchar_toNat_of_ge {n : BitVec 4} (h : 10 ≤ n.toNat) : (hexchar n).toNat = 0x61 + (n.toNat - 10) := by
  revert n; decide

/-- Settles O22: `toHex_getElem?` gives the two characters of each byte; the rules' examples are evaluated. -/
theorem hexIsTwoLowercaseDigitsPerByte : Obligations.HexIsTwoLowercaseDigitsPerByte := by
  refine ⟨fun n => ⟨hexchar_toNat_of_le, hexchar_toNat_of_ge⟩, toHex_length, fun bs k b => toHex_getElem?, ?_⟩
  decide

end Sys2Proof.Machine
end

section
/-!
PROOFS. The command port (spec/45_host_commands.md R200-R202): an accepted command is executed and answered once, and a held one
waits for CORE.
-/

namespace Sys2Proof.Machine

/-! ### An accepted command (R201, R202) -/

/-- A step in which HOST has the turn, as the execution of the command on the port. -/
theorem step_of_exec {s u : State} {c : Command} {rest : List Command} {i : Instr} (hr : s.resetPin = false)
    (hp : s.port = c :: rest) (hd : decode c = .ok i) (ha : s.accepts c = true)
    (ht : s.coreEnabled = false ∨ s.polls < Config.hostTurns s.coreSteps) (hx : exec i s.takeCommand = .next u) :
    step s = .next u.returnResp := by
  rw [step_of_turn_host (State.turn_host hr (State.hostReady_of_accepts hp ha) ht), hostStep_eq_next]
  exact ⟨u, (dispatchCommand_of_ok hd _).trans hx, rfl⟩

/-- Settles O46: `step_of_exec`, with `takeCommand` written out. -/
theorem stepExecutesTheAcceptedCommand : Obligations.StepExecutesTheAcceptedCommand := by
  intro s c rest i hr hp hd hacc ht
  have ha : s.accepts c = true := by
    rw [s.accepts_iff, hd]
    simpa using hacc
  have hturn : s.coreEnabled = false ∨ s.polls < Config.hostTurns s.coreSteps :=
    ht.imp_left fun ⟨hrun, hbusy⟩ => by simp [State.coreEnabled, hrun, hbusy]
  have htake : s.takeCommand = { s with port := rest, polls := if s.run || s.busy then s.polls + 1 else s.polls } := by
    rw [State.takeCommand, hp, List.tail_cons]
    rfl
  obtain ⟨u, hx⟩ := exec_completes i s.takeCommand
  rw [step_of_exec hr hp hd ha hturn hx, ← htake, hx]
  rfl

/-- A dispatched command returns nothing by itself; the step does (R80). -/
theorem dispatchCommand_returned {c : Command} {s t : State} (h : dispatchCommand c s = .next t) :
    t.returned = s.returned := by
  rcases dispatchCommand_cases h with ⟨e, -, rfl⟩ | ⟨i, -, hx⟩
  · exact s.raise_returned _
  · obtain ⟨-, -, -, -, -, hret, -⟩ := exec_core_fields hx
    exact hret

theorem hostStep_returned {c : Command} {s t : State} (h : hostStep c s = .next t) :
    t.returned = s.returned ++ [t.resp] := by
  obtain ⟨u, hu, rfl⟩ := hostStep_eq_next.1 h
  rw [State.returnResp_returned, dispatchCommand_returned hu]
  rfl

/-- RDDIG answers its word of `H` in phase DONE, and 0 where it raises. -/
theorem execRddig_resp {s t : State} {idx : BitVec 4} (hi : idx.toNat < 8) (h : execRddig idx s = .next t) :
    if s.phase = .done then some t.resp = s.chainH[idx.toNat]? else t.resp = 0 := by
  rcases execRddig_cases h with ⟨h8, -⟩ | ⟨-, hp, rfl⟩ | ⟨-, hp, rfl⟩
  · omega
  · rw [if_neg hp, State.raise_resp]
  · rw [if_pos hp, State.respond_resp, Vector.getElem?_eq_getElem hi]

/-- RDHEX answers its four characters in phase DONE, and 0 where it raises. -/
theorem execRdhex_resp {s t : State} {idx : BitVec 4} (h : execRdhex idx s = .next t) :
    if s.phase = .done then bytes32 t.resp = ((toHex (digestBytes s.chainH)).drop (4 * idx.toNat)).take 4
    else t.resp = 0 := by
  rcases execRdhex_cases h with ⟨hp, rfl⟩ | ⟨hp, rfl⟩
  · rw [if_neg hp, State.raise_resp]
  · have := idx.isLt
    rw [if_pos hp, State.respond_resp, bytes32_hexGroup (by rw [toHex_digestBytes_length]; omega)]

/-- ABSORB answers 0, whether it takes its bytes or raises. -/
theorem execAbsorb_resp {s t : State} {n1 : BitVec 2} {data : Word} (h : execAbsorb n1 data s = .next t) : t.resp = 0 := by
  rcases execAbsorb_cases h with ⟨-, rfl⟩ | ⟨-, -, rfl⟩ | ⟨-, -, rfl⟩
  · exact s.raise_resp _
  · exact s.raise_resp _
  · rfl

theorem execFinal_resp {s t : State} (h : execFinal s = .next t) : t.resp = 0 := by
  rcases execFinal_cases h with ⟨-, rfl⟩ | ⟨-, rfl⟩
  · exact s.raise_resp _
  · rfl

/-- Settles O32: what a command answers is said command by command; a CORE step has the frame of `coreStep_frame`. -/
theorem everyAcceptedCommandAnswersOnce : Obligations.EveryAcceptedCommandAnswersOnce := by
  refine ⟨fun c s t => hostStep_returned, fun c s t h => ?_, fun s t h => ?_⟩
  · rcases dispatchCommand_cases h with ⟨e, hd, rfl⟩ | ⟨i, hd, hx⟩
    · rw [hd]
      exact s.raise_resp _
    · have hw := wellFormed_of_decode hd
      rw [hd]
      cases i with
      | absorb n1 data => exact execAbsorb_resp hx
      | final => exact execFinal_resp hx
      | rddig idx => exact execRddig_resp (of_decide_eq_true hw) hx
      | rdhex idx => exact execRdhex_resp hx
      | nop | init | rdstat => obtain rfl := Host.Outcome.next.inj hx; rfl
  · obtain ⟨u, hu, rfl⟩ := countedCoreStep_eq_next.1 h
    rw [coreStep_frame hu]
    exact ⟨rfl, rfl⟩

/-! ### A held command (R200) -/

/-- While the pair is held the step is CORE's: BUSY = 1, so CORE has one. -/
theorem step_of_held {s : State} {c : Command} {rest : List Command} (hr : s.resetPin = false) (hp : s.port = c :: rest)
    (ha : s.accepts c = false) : step s = countedCoreStep s :=
  step_of_turn_core (State.turn_core_of_held hr (State.hostReady_of_held hp ha)
    (s.coreEnabled_iff.2 (.inr (State.busy_of_held ha))))

theorem State.accepts_of_waits {s : State} {c : Command} (hc : acceptedWhileBusy c = false) (hb : s.pend ≠ []) :
    s.accepts c = false := by
  simp [State.accepts, hc, s.busy_true_iff.2 hb]

theorem acceptedWhileBusy_of_held {s : State} {c : Command} (ha : s.accepts c = false) : acceptedWhileBusy c = false :=
  (Bool.or_eq_false_iff.1 ha).2

/-- A state with other values of the model's two counters, which no CORE step reads (log 2). -/
def State.withCounters (s : State) (k p : Nat) : State := { s with coreSteps := k, polls := p }

theorem coreStep_withCounters {s t : State} (h : coreStep s = .next t) (k p : Nat) :
    coreStep (s.withCounters k p) = .next (t.withCounters k p) := by
  rcases coreStep_cases h with ⟨hr, hp, rfl⟩ | ⟨hr, blk, rest, hp, rfl⟩ | ⟨hr, hn, rfl⟩ | ⟨hr, ht, rfl⟩
  · exact coreStep_idle hr hp
  · exact coreStep_cstart (s := s.withCounters k p) hr hp
  · exact coreStep_cround (s := s.withCounters k p) hr hn
  · exact coreStep_cmix (s := s.withCounters k p) hr (congrArg Fin.val ht)

/-- A step in which the pair is held, the counters apart, is CORE's step alone. -/
theorem step_withCounters_of_held {s t : State} {c : Command} {rest : List Command} (hr : s.resetPin = false)
    (hp : s.port = c :: rest) (ha : s.accepts c = false) (h : coreStep s = .next t) (k p : Nat) :
    step (s.withCounters k p) = .next (t.withCounters (k + 1) 0) := by
  rw [step_of_held (s := s.withCounters k p) hr hp ha, countedCoreStep_eq_next]
  exact ⟨_, coreStep_withCounters h k p, rfl⟩

/-- R200: where CORE alone would empty the queue in `n` steps, a machine whose pair waits for it does so in at most `n`. -/
theorem stepN_of_coreStepN {s u : State} {c : Command} {rest : List Command} {n : Nat} (hi : s.Inv)
    (hr : s.resetPin = false) (hp : s.port = c :: rest) (hc : acceptedWhileBusy c = false)
    (hu : coreStepN n s = .next u) (hdone : u.pend = []) (k p : Nat) :
    ∃ m k' p', m ≤ n ∧ stepN m (s.withCounters k p) = .next (u.withCounters k' p') := by
  induction n generalizing s k p with
  | zero =>
    obtain rfl := Host.Outcome.next.inj hu
    exact ⟨0, k, p, le_rfl, rfl⟩
  | succ n ih =>
    obtain ⟨s₁, hs₁, hu₁⟩ := Result.andThen_eq_next.1 hu
    by_cases hb : s.pend = []
    · obtain rfl : s = s₁ := Host.Outcome.next.inj ((coreStep_idle (hi.not_run hb) hb).symm.trans hs₁)
      obtain ⟨m, k', p', hm, hrun⟩ := ih hi hr hp hu₁ k p
      exact ⟨m, k', p', by omega, hrun⟩
    · have hstep := step_withCounters_of_held hr hp (State.accepts_of_waits hc hb) hs₁ k p
      have hframe := coreStep_frame hs₁
      obtain ⟨m, k', p', hm, hrun⟩ := ih (hi.coreStep hs₁) (by rw [hframe]; exact hr) (by rw [hframe]; exact hp) hu₁ (k + 1) 0
      refine ⟨m + 1, k', p', by omega, ?_⟩
      simpa [stepN, hstep] using hrun

/-- Any number of CORE steps leaves what HOST has to present and what it received. -/
theorem coreStepN_host {n : Nat} {s t : State} (h : coreStepN n s = .next t) :
    t.port = s.port ∧ t.returned = s.returned := by
  induction n generalizing s with
  | zero => obtain rfl := Host.Outcome.next.inj h; exact ⟨rfl, rfl⟩
  | succ n ih =>
    obtain ⟨s₁, hs₁, ht⟩ := Result.andThen_eq_next.1 h
    have hframe := coreStep_frame hs₁
    obtain ⟨hport, hret⟩ := ih ht
    exact ⟨by rw [hport, hframe], by rw [hret, hframe]⟩

/-- Settles O48: CORE empties the queue within 132 of its steps (O44), and while the pair is held the machine's steps are CORE's
(`stepN_of_coreStepN`). -/
theorem heldCommandsWaitForCore : Obligations.HeldCommandsWaitForCore := by
  refine ⟨State.accepts_iff, fun s c rest => step_of_held, fun s t c rest hr hp ha h => ?_, fun s c rest hi hr hp ha => ?_,
    fun s c e hd _ => dispatchCommand_of_error hd s⟩
  · rw [step_of_held hr hp ha, countedCoreStep_eq_next] at h
    obtain ⟨u, hu, rfl⟩ := h
    rw [coreStep_frame hu]
    exact ⟨rfl, rfl, rfl, rfl, rfl, rfl, rfl, rfl⟩
  · obtain ⟨n, u, hn, hu, hdone⟩ := coreEmptiesTheQueueWithin132Steps s hi
    obtain ⟨m, k, p, hm, hrun⟩ :=
      stepN_of_coreStepN hi hr hp (acceptedWhileBusy_of_held ha) hu hdone s.coreSteps s.polls
    obtain ⟨hport, hret⟩ := coreStepN_host hu
    exact ⟨m, _, hm.trans hn, hrun, hport.trans hp, hret, State.accepts_of_not_busy ((State.busy_false_iff _).2 hdone) c⟩

end Sys2Proof.Machine
end

section
/-!
PROOFS. What NOP, RDDIG and RDHEX answer (spec/45_host_commands.md R210, R222, R225).
-/

namespace Sys2Proof.Machine

/-! ### NOP (R210) -/

/-- R85: NOP's word is its row's pattern, and DATA is no operand of it. -/
theorem decode_nop (data : Word) : decode ⟨0x00000000, data⟩ = .ok .nop := by
  have h : Row.matchesWord ⟨.nop, 0x00000000, 0xFFFFFFFF⟩ 0x00000000 = true := by decide
  exact decode_of_matches (r := ⟨.nop, 0x00000000, 0xFFFFFFFF⟩) (by decide) h

/-- Settles O25: NOP is `State.respond` with 0, and `resp` is no part of STATUS. -/
theorem nopOnlyAnswersZero : Obligations.NopOnlyAnswersZero :=
  ⟨decode_nop, fun _ => ⟨_, rfl, rfl, State.status_congr rfl rfl rfl rfl rfl⟩,
    fun s data => (s.accepts_iff _).2 (.inr (.inl (decode_nop data))), ⟨_, rfl, rfl, by decide⟩⟩

/-! ### RDDIG (R222) -/

/-- R85: RDDIG's words have the index in `IDX`. -/
theorem decode_rddig (i : Fin 8) (data : Word) :
    decode ⟨0x00000004 ||| (BitVec.ofNat 32 i.val <<< 8), data⟩ = .ok (.rddig (BitVec.ofNat 4 i.val)) := by
  have h : ∀ i : Fin 8,
      Row.matchesWord ⟨.rddig, 0x00000004, 0xFFFFF8FF⟩ (0x00000004 ||| (BitVec.ofNat 32 i.val <<< 8)) = true ∧
        idxField (0x00000004 ||| (BitVec.ofNat 32 i.val <<< 8)) = BitVec.ofNat 4 i.val := by decide
  obtain ⟨hm, hidx⟩ := h i
  rw [decode_of_matches (r := ⟨.rddig, 0x00000004, 0xFFFFF8FF⟩) (by decide) hm, operandsOf, hidx]

theorem toNat_rddigIndex (i : Fin 8) : (BitVec.ofNat 4 i.val).toNat = i.val := by
  rw [BitVec.toNat_ofNat, Nat.mod_eq_of_lt (by omega)]

/-- A read command is neither NOP nor RDSTAT, so it waits while BUSY = 1 (R200). -/
theorem State.not_accepts_of_busy {s : State} {c : Command} {i : Instr} (hd : decode c = .ok i) (hnop : i ≠ .nop)
    (hrdstat : i ≠ .rdstat) (hb : s.busy = true) : s.accepts c = false := by
  rw [← Bool.not_eq_true, s.accepts_iff, hd, hb]
  simp [hnop, hrdstat]

/-- Settles O29: the word is `H[i]` (`execRddig_of_done`), whose lanes are `take_drop_digestBytes`. -/
theorem rddigReadsADigestWord : Obligations.RddigReadsADigestWord := by
  refine ⟨decode_rddig, fun s i hp => ⟨?_, (take_drop_digestBytes s.chainH i.isLt).symm⟩, fun s i hp => ?_,
    fun s c idx hd => State.not_accepts_of_busy hd (by simp) (by simp)⟩
  · have hi : (BitVec.ofNat 4 i.val).toNat < 8 := by rw [toNat_rddigIndex]; exact i.isLt
    refine (execRddig_of_done hi hp).trans ?_
    simp only [toNat_rddigIndex]
    rfl
  · exact execRddig_of_wrongPhase (by rw [toNat_rddigIndex]; exact i.isLt) hp

/-! ### RDHEX (R225) -/

/-- R85: RDHEX's words have the group in `IDX`. -/
theorem decode_rdhex (j : Fin 16) (data : Word) :
    decode ⟨0x00000005 ||| (BitVec.ofNat 32 j.val <<< 8), data⟩ = .ok (.rdhex (BitVec.ofNat 4 j.val)) := by
  have h : ∀ j : Fin 16,
      Row.matchesWord ⟨.rdhex, 0x00000005, 0xFFFFF0FF⟩ (0x00000005 ||| (BitVec.ofNat 32 j.val <<< 8)) = true ∧
        idxField (0x00000005 ||| (BitVec.ofNat 32 j.val <<< 8)) = BitVec.ofNat 4 j.val := by decide
  obtain ⟨hm, hidx⟩ := h j
  rw [decode_of_matches (r := ⟨.rdhex, 0x00000005, 0xFFFFF0FF⟩) (by decide) hm, operandsOf, hidx]

theorem toNat_rdhexIndex (j : Fin 16) : (BitVec.ofNat 4 j.val).toNat = j.val := by
  rw [BitVec.toNat_ofNat, Nat.mod_eq_of_lt j.isLt]

/-- The word of character group `j` (R65). -/
theorem bytes32_hexGroup_digest (h : Words8) {j : Nat} (hj : j < 16) :
    bytes32 (hexGroup (toHex (digestBytes h)) j) = ((toHex (digestBytes h)).drop (4 * j)).take 4 :=
  bytes32_hexGroup (by rw [toHex_digestBytes_length]; omega)

/-- Character `q` of group `j` is the digit of a nibble of word `j / 2`: the upper half for even `j`, the lower for odd (R225). -/
theorem byteOf_hexGroup_digest (h : Words8) {j q : Nat} (hj : j < 16) (hq : q < 4) :
    byteOf (hexGroup (toHex (digestBytes h)) j) q =
      hexchar ((h[j / 2]'(by omega)).extractLsb' (28 - 4 * (4 * (j % 2) + q)) 4) := by
  have hchar := toHex_digestBytes_getElem? h (i := j / 2) (j := 4 * (j % 2) + q) (by omega) (by omega)
  rw [show 8 * (j / 2) + (4 * (j % 2) + q) = 4 * j + q by omega] at hchar
  apply Option.some.inj
  rw [← hchar, ← bytes32_getElem? _ hq, bytes32_hexGroup_digest h hj, List.getElem?_take_of_lt hq, List.getElem?_drop]

/-- The characters of a group are those of the hex string, so lowercase hex digits (R182). -/
theorem hexGroup_digest_range {h : Words8} {j : Nat} (hj : j < 16) {b : Byte}
    (hb : b ∈ bytes32 (hexGroup (toHex (digestBytes h)) j)) :
    (0x30 ≤ b.toNat ∧ b.toNat ≤ 0x39) ∨ (0x61 ≤ b.toNat ∧ b.toNat ≤ 0x66) := by
  rw [bytes32_hexGroup_digest h hj] at hb
  obtain ⟨n, rfl⟩ := mem_toHex (List.mem_of_mem_drop (List.mem_of_mem_take hb))
  exact hexchar_range n

/-- Settles O30: the word is the `hexGroup` of the digest's hex string (`execRdhex_of_done`). -/
theorem rdhexReadsFourCharacters : Obligations.RdhexReadsFourCharacters := by
  refine ⟨decode_rdhex, fun s j hp => ⟨hexGroup (toHex (digestBytes s.chainH)) j.val, ?_,
    bytes32_hexGroup_digest _ j.isLt, fun q hq => byteOf_hexGroup_digest _ j.isLt hq,
    fun b hb => hexGroup_digest_range j.isLt hb⟩, fun s j hp => execRdhex_of_wrongPhase _ hp⟩
  refine (execRdhex_of_done _ hp).trans ?_
  rw [toNat_rdhexIndex]
  rfl

end Sys2Proof.Machine
end

section
/-!
PROOFS. The commands that take a message in: INIT, ABSORB and FINAL (spec/45_host_commands.md R212, R214, R218).
-/

namespace Sys2Proof.Machine

/-! ### INIT (R212) -/

/-- R85: INIT's word is its row's pattern, and DATA is no operand of it. -/
theorem decode_init (data : Word) : decode ⟨0x00000001, data⟩ = .ok .init := by
  have h : Row.matchesWord ⟨.init, 0x00000001, 0xFFFFFFFF⟩ 0x00000001 = true := by decide
  exact decode_of_matches (r := ⟨.init, 0x00000001, 0xFFFFFFFF⟩) (by decide) h

/-- The state that INIT leaves. -/
def State.initialized (s : State) : State :=
  { s with chainH := iv, len := 0, fill := 0, phase := .absorb, err := false, cause := .noError, resp := 0 }

theorem execInit_eq (s : State) : execInit s = .next s.initialized := rfl

/-- STATUS after INIT, the BUSY bit apart: phase ABSORB, and every other field 0. -/
theorem State.status_initialized (s : State) : s.initialized.status.extractLsb 18 1 = 2#18 := by
  have h : ∀ busy : Bool, (0#13 ++ Cause.noError.code ++ BitVec.ofBool false ++ 0#6 ++ BitVec.ofNat 6 0 ++ Phase.absorb.code
      ++ BitVec.ofBool false ++ BitVec.ofBool busy : BitVec 32).extractLsb 18 1 = 2#18 := by decide
  exact h s.initialized.busy

/-- Only INIT clears an error (R268, R270). -/
theorem exec_err {i : Instr} {s t : State} (hi : i ≠ .init) (h : exec i s = .next t) (he : s.err = true) : t.err = true := by
  cases i with
  | init => exact absurd rfl hi
  | nop | rdstat => obtain rfl := Host.Outcome.next.inj h; exact he
  | absorb n1 data =>
    rcases execAbsorb_cases h with ⟨-, rfl⟩ | ⟨-, -, rfl⟩ | ⟨-, -, rfl⟩
    · exact s.raise_err _
    · exact s.raise_err _
    · rw [State.respond_err, absorbBytes_frame]
      exact he
  | final =>
    rcases execFinal_cases h with ⟨-, rfl⟩ | ⟨-, rfl⟩
    · exact s.raise_err _
    · exact he
  | rddig idx =>
    rcases execRddig_cases h with ⟨-, rfl⟩ | ⟨-, -, rfl⟩ | ⟨_, -, rfl⟩
    · exact s.raise_err _
    · exact s.raise_err _
    · exact he
  | rdhex idx =>
    rcases execRdhex_cases h with ⟨-, rfl⟩ | ⟨-, rfl⟩
    · exact s.raise_err _
    · exact he

/-- Settles O26: the next state is `State.initialized`, whose phase is not DONE. -/
theorem initStartsAMessage : Obligations.InitStartsAMessage := by
  refine ⟨decode_init, fun s => ⟨s.initialized, execInit_eq s, rfl, s.status_initialized,
    fun idx hi => execRddig_of_wrongPhase hi (by simp [State.initialized]),
    fun idx => execRdhex_of_wrongPhase idx (by simp [State.initialized])⟩, fun i s t h he ht => ?_,
    ⟨_, execInit_eq _, by decide, rfl⟩⟩
  by_contra hi
  simp [exec_err hi h he] at ht

/-! ### ABSORB (R214) -/

/-- The loop writes its bytes from `fill` on and around, and leaves the other bytes of `buf`. -/
theorem absorbBytes_buf {bs : List Byte} (s : State) (hl : bs.length ≤ 64) {i : Nat} (hi : i < 64) :
    (absorbBytes bs s).buf[i] = (bs[(i + 64 - s.fill.val) % 64]?).getD s.buf[i] := by
  induction bs generalizing s with
  | nil => rfl
  | cons b bs ih =>
    obtain ⟨hframe, hfill, -, -⟩ := absorbByte_spec b s
    have hbuf : (absorbByte b s).buf[i] = (s.buf.set s.fill.val b)[i] := by rw [hframe]
    have hs := s.fill.isLt
    rw [List.length_cons] at hl
    rw [absorbBytes, ih _ (by omega), hfill, hbuf, Vector.getElem_set]
    by_cases heq : s.fill.val = i
    · have hnew : (i + 64 - (s.fill.val + 1) % 64) % 64 = 63 := by omega
      have hold : (i + 64 - s.fill.val) % 64 = 0 := by omega
      rw [hnew, hold, if_pos heq, List.getElem?_eq_none (by omega)]
      rfl
    · have hold : (i + 64 - s.fill.val) % 64 = (i + 64 - (s.fill.val + 1) % 64) % 64 + 1 := by omega
      rw [if_neg heq, hold, List.getElem?_cons_succ]

/-- The block that an ABSORB fills: the partial block, then the bytes of DATA. -/
theorem blockAt_filled {s : State} {n1 : BitVec 2} {data : Word} (h : 64 ≤ s.fill.val + byteCount n1) {i : Nat}
    (hi : i < 64) :
    (blockAt (s.partialBlock ++ lanes n1 data) 0)[i] =
      if i < s.fill.val then s.buf[i] else byteOf data (i - s.fill.val) := by
  unfold byteCount at h
  rw [blockAt_getElem _ _ _ hi, Nat.mul_zero, Nat.zero_add, List.getD_eq_getElem?_getD]
  by_cases hlt : i < s.fill.val
  · rw [List.getElem?_append_left (by simpa using hlt), State.partialBlock_getElem?, if_pos hlt, if_pos hlt,
      Vector.getElem?_eq_getElem hi]
    rfl
  · rw [List.getElem?_append_right (by simpa using hlt), State.partialBlock_length, lanes_getElem?,
      if_pos (by omega), if_neg hlt]
    rfl

/-- What an ABSORB that fits leaves, beside `execAbsorb_spec`: the bytes of `buf` and how many of them are valid. -/
theorem execAbsorb_buf {s t : State} {n1 : BitVec 2} {data : Word} (h : s.phase = .absorb)
    (h' : s.len + byteCount n1 ≤ Config.maxMsgBytes) (hx : execAbsorb n1 data s = .next t) {i : Nat} (hi : i < 64) :
    t.buf[i] = if (i + 64 - s.fill.val) % 64 ≤ n1.toNat then byteOf data ((i + 64 - s.fill.val) % 64) else s.buf[i] := by
  rw [execAbsorb_of_fits data h h'] at hx
  obtain rfl := Host.Outcome.next.inj hx
  have hl : (lanes n1 data).length ≤ 64 := by
    have := byteCount_le n1
    rw [lanes_length]
    omega
  have hbuf := absorbBytes_buf s hl hi
  rw [lanes_getElem?] at hbuf
  refine hbuf.trans ?_
  split <;> rfl

/-- The bytes join the partial block, which begins anew at 64. -/
theorem fill_of_partialBlock {s t : State} {bs : List Byte} (hl : bs.length ≤ 64)
    (h : t.partialBlock = if s.fill.val + bs.length < 64 then s.partialBlock ++ bs else (s.partialBlock ++ bs).drop 64) :
    t.fill.val = (s.fill.val + bs.length) % 64 := by
  have hs := s.fill.isLt
  have hlen := congrArg List.length h
  rw [State.partialBlock_length] at hlen
  rw [hlen]
  split
  · rw [List.length_append, State.partialBlock_length]
    omega
  · rw [List.length_drop, List.length_append, State.partialBlock_length]
    omega

/-- Settles O27: the three cases of ABSORB; where the bytes fit, the next state is that of `execAbsorb_spec`. -/
theorem absorbTakesItsBytesInOrder : Obligations.AbsorbTakesItsBytesInOrder := by
  refine fun n1 data s => ⟨fun hp hl => ?_, execAbsorb_of_wrongPhase n1 data, execAbsorb_of_overlong data⟩
  obtain ⟨t, hx, hframe, hpart, hpend⟩ := execAbsorb_spec n1 data hp hl
  have hfill : t.fill.val = (s.fill.val + byteCount n1) % 64 := by
    have hn := byteCount_le n1
    rw [← lanes_length n1 data] at hpart hn ⊢
    exact fill_of_partialBlock (by omega) hpart
  have hlen : t.len = s.len + byteCount n1 := by rw [hframe]
  refine ⟨t, hx, by rw [hlen]; exact hframe, hlen, hfill, fun i hi => execAbsorb_buf hp hl hx hi,
    fun hlt => hpend.trans (if_pos hlt), fun hge => ⟨_, hpend.trans (if_neg (Nat.not_lt.2 hge)), ?_⟩⟩
  exact fun i hi => blockAt_filled hge hi

/-! ### FINAL (R218) -/

/-- R85: FINAL's word is its row's pattern, and DATA is no operand of it. -/
theorem decode_final (data : Word) : decode ⟨0x00000003, data⟩ = .ok .final := by
  have h : Row.matchesWord ⟨.final, 0x00000003, 0xFFFFFFFF⟩ 0x00000003 = true := by decide
  exact decode_of_matches (r := ⟨.final, 0x00000003, 0xFFFFFFFF⟩) (by decide) h

/-- `buf[0..fill-1]`, byte by byte (R34). -/
theorem State.eq_partialBlock {s : State} {p : List Byte} (hl : p.length = s.fill.val)
    (hb : ∀ (i : Nat) (h : i < 64), i < s.fill.val → p[i]? = some s.buf[i]) : p = s.partialBlock := by
  apply List.ext_getElem?
  intro i
  rw [State.partialBlock_getElem?]
  by_cases hi : i < s.fill.val
  · have h64 := hi.trans s.fill.isLt
    rw [if_pos hi, hb i h64 hi, Vector.getElem?_eq_getElem h64]
  · rw [if_neg hi, List.getElem?_eq_none (by omega)]

theorem padTail_length (p : List Byte) (l : DWord) : (padTail p l).length = if p.length ≤ 55 then 1 else 2 := by
  by_cases h : p.length ≤ 55
  · rw [padTail_of_le l h, if_pos h]
    rfl
  · rw [padTail_of_gt l (by omega), if_neg h]
    rfl

/-- Settles O28: the next state is that of `execFinal_spec`, with the bytes of the partial block. -/
theorem finalQueuesThePaddedTail : Obligations.FinalQueuesThePaddedTail := by
  refine ⟨decode_final, fun s p hl hb hp => ?_, fun s => execFinal_of_wrongPhase⟩
  obtain rfl := State.eq_partialBlock hl hb
  refine ⟨_, execFinal_spec hp, rfl, (State.busy_true_iff _).2 ?_, ?_⟩
  · simp [padTail_ne_nil]
  · simp [padTail_length]

/-! ### The frame of the three (R263) -/

/-- FRAME of ABSORB, in every state. -/
theorem execAbsorb_frame {s t : State} {n1 : BitVec 2} {data : Word} (h : execAbsorb n1 data s = .next t) :
    t = { s with
      buf := t.buf, fill := t.fill, len := t.len, pend := t.pend, err := t.err, cause := t.cause, resp := t.resp } ∧
    (t.pend = s.pend ∨ ∃ blk, t.pend = s.pend ++ [blk]) := by
  rcases execAbsorb_cases h with ⟨-, rfl⟩ | ⟨-, -, rfl⟩ | ⟨hp, hl, -⟩
  · exact ⟨by conv_lhs => rw [s.raise_frame]
              simp, .inl (by simp)⟩
  · exact ⟨by conv_lhs => rw [s.raise_frame]
              simp, .inl (by simp)⟩
  · obtain ⟨u, hu, hframe, -, hpend⟩ := execAbsorb_spec n1 data hp hl
    obtain rfl := Host.Outcome.next.inj (h.symm.trans hu)
    refine ⟨by rw [hframe], ?_⟩
    rw [hpend]
    split
    · exact .inl rfl
    · exact .inr ⟨_, rfl⟩

/-- FRAME of FINAL, in every state; a byte of `buf` is as it was or a tail block's (log 5). -/
theorem execFinal_frame {s t : State} (h : execFinal s = .next t) :
    t = { s with
      buf := t.buf, fill := t.fill, phase := t.phase, pend := t.pend, err := t.err, cause := t.cause, resp := t.resp } ∧
    ∃ tail, t.pend = s.pend ++ tail ∧
      ∀ (i : Nat) (h : i < 64), t.buf[i] = s.buf[i] ∨ ∃ blk ∈ tail, t.buf[i] = blk[i] := by
  rcases execFinal_cases h with ⟨-, rfl⟩ | ⟨-, rfl⟩
  · exact ⟨by conv_lhs => rw [s.raise_frame]
              simp, [], by simp, fun i hi => .inl (by simp)⟩
  · exact ⟨rfl, _, rfl, s.bufAfterTail_getElem _⟩

/-- Settles O39: the three frames. -/
theorem messageCommandsLeaveTheRestUnchanged : Obligations.MessageCommandsLeaveTheRestUnchanged := by
  refine fun s t => ⟨fun h => ?_, fun n1 data => execAbsorb_frame, execFinal_frame⟩
  obtain rfl := Host.Outcome.next.inj h
  rfl

end Sys2Proof.Machine
end

section
/-!
PROOFS. The command sequence by which HOST obtains one digest (spec/45_host_commands.md R232, spec/41_padder.md R105). What the machine has
of a message is followed along the run: the partial block, and the chaining state that the queued blocks will have led to. A command
keeps this whether or not CORE has caught up, and so does CORE, so the interleaving does not matter.
-/

namespace Sys2Proof.Machine

/-! ### Runs -/

/-- Some number of steps leads from `s` to `t`. -/
def Reaches (s t : State) : Prop := ∃ n, stepN n s = .next t

theorem Reaches.of_step {s t : State} (h : step s = .next t) : Reaches s t := ⟨1, by simp [stepN, h]⟩

theorem stepN_add {m n : Nat} {s t : State} (h : stepN m s = .next t) : stepN (m + n) s = stepN n t := by
  induction m generalizing s with
  | zero => obtain rfl := Host.Outcome.next.inj h; simp
  | succ m ih =>
    obtain ⟨u, hu, ht⟩ := Result.andThen_eq_next.1 h
    rw [Nat.succ_add, stepN, hu, Result.andThen_next, ih ht]

theorem Reaches.trans {s t u : State} (hst : Reaches s t) (htu : Reaches t u) : Reaches s u := by
  obtain ⟨m, hm⟩ := hst
  obtain ⟨n, hn⟩ := htu
  exact ⟨m + n, (stepN_add hm).trans hn⟩

theorem State.Inv.stepN {s t : State} {n : Nat} (hi : s.Inv) (h : stepN n s = .next t) : t.Inv := by
  induction n generalizing s with
  | zero => obtain rfl := Host.Outcome.next.inj h; exact hi
  | succ n ih =>
    obtain ⟨u, hu, ht⟩ := Result.andThen_eq_next.1 h
    exact ih (hi.step hu) ht

/-! ### Blocks and the chaining state (R105, R106) -/

@[simp] theorem chain_nil (h : Words8) : chain h [] = h := rfl

@[simp] theorem chain_cons (h : Words8) (blk : Block) (q : List Block) :
    chain h (blk :: q) = chain (compress h (schedule blk)) q := rfl

theorem chain_append (h : Words8) (p q : List Block) : chain h (p ++ q) = chain (chain h p) q := List.foldl_append

/-- The bytes after the last full block. -/
def lastBytes (m : List Byte) : List Byte := m.drop (64 * (m.length / 64))

theorem lastBytes_length (m : List Byte) : (lastBytes m).length = m.length % 64 := by
  rw [lastBytes, List.length_drop]
  omega

/-- More bytes leave the full blocks, and join the bytes after them. -/
theorem blocks_append_lastBytes (m r : List Byte) : blocks (m ++ r) = blocks m ++ blocks (lastBytes m ++ r) := by
  have hfull : 64 * (m.length / 64) ≤ m.length := Nat.mul_div_le _ _
  calc blocks (m ++ r)
      = blocks (m.take (64 * (m.length / 64)) ++ (lastBytes m ++ r)) := by
        rw [lastBytes, ← List.append_assoc, List.take_append_drop]
    _ = blocks m ++ blocks (lastBytes m ++ r) := by
        rw [blocks_append (List.length_take_of_le hfull), blocks_take hfull]
        rfl

theorem lastBytes_append (m r : List Byte) :
    lastBytes (m ++ r) = (lastBytes m ++ r).drop (64 * ((lastBytes m ++ r).length / 64)) := by
  have hfull : 64 * (m.length / 64) ≤ m.length := Nat.mul_div_le _ _
  have hlen : 64 * ((m ++ r).length / 64) = 64 * (m.length / 64) + 64 * ((lastBytes m ++ r).length / 64) := by
    rw [List.length_append, List.length_append, lastBytes_length]
    omega
  rw [lastBytes, hlen, ← List.drop_drop, List.drop_append_of_le_length hfull]
  rfl

/-- Bytes that fill no block. -/
theorem lastBytes_blocks_append_of_lt {m r : List Byte} (h : (lastBytes m ++ r).length < 64) :
    lastBytes (m ++ r) = lastBytes m ++ r ∧ blocks (m ++ r) = blocks m := by
  have hdiv : (lastBytes m ++ r).length / 64 = 0 := Nat.div_eq_of_lt h
  constructor
  · rw [lastBytes_append, hdiv]
    rfl
  · rw [blocks_append_lastBytes, blocks.eq_def (lastBytes m ++ r), hdiv]
    exact List.append_nil _

/-- Bytes that fill one block. -/
theorem lastBytes_blocks_append_of_ge {m r : List Byte} (h : 64 ≤ (lastBytes m ++ r).length)
    (h' : (lastBytes m ++ r).length < 128) :
    lastBytes (m ++ r) = (lastBytes m ++ r).drop 64 ∧ blocks (m ++ r) = blocks m ++ [blockAt (lastBytes m ++ r) 0] := by
  have hdiv : (lastBytes m ++ r).length / 64 = 1 := by omega
  constructor
  · rw [lastBytes_append, hdiv]
  · rw [blocks_append_lastBytes, blocks.eq_def (lastBytes m ++ r), hdiv]
    rfl

/-- The padded message ends in the padded tail of its last bytes (R105). -/
theorem blocks_pad (m : List Byte) : blocks (pad m) = blocks m ++ padTail (lastBytes m) (bitLength m.length) := by
  have hlt : (lastBytes m).length < 64 := by
    rw [lastBytes_length]
    omega
  rw [pad, blocks_append_lastBytes, padTail_eq_blocks _ hlt, lastBytes_length, padding_mod]

/-! ### The machine between two commands -/

/-- The machine where a command has just been executed, so that CORE has not yet begun what it queued. -/
structure State.Between (s : State) (port : List Command) (returned : List Word) : Prop where
  inv : s.Inv
  noReset : s.resetPin = false
  notRunning : s.run = false
  port_eq : s.port = port
  returned_eq : s.returned = returned

/-- The message `m` is open without an error: its full blocks are compressed or queued, and the rest is the partial block. -/
structure State.OpenMessage (s : State) (m : List Byte) : Prop where
  noError : s.err = false
  phase : s.phase = .absorb
  len : s.len = m.length
  partialBlock : s.partialBlock = lastBytes m
  chain_pend : chain s.chainH s.pend = chain iv (blocks m)

/-- A message is closed without an error, and its chaining state is or will be `h`. -/
structure State.ClosedMessage (s : State) (h : Words8) : Prop where
  noError : s.err = false
  phase : s.phase = .finalizing ∨ s.phase = .done
  chain_pend : chain s.chainH s.pend = h

/-- Where BUSY = 0, a closed message is done and its chaining state is in `H`. -/
theorem State.ClosedMessage.done {s : State} {h : Words8} (hc : s.ClosedMessage h) (hi : s.Inv) (hb : s.pend = []) :
    s.phase = .done ∧ s.chainH = h :=
  ⟨hc.phase.resolve_left (hi.not_finalizing hb), by rw [← hc.chain_pend, hb, chain_nil]⟩

/-! ### CORE empties the queue -/

/-- CORE alone compresses every queued block, in order (R105, R151). -/
theorem coreStepN_chain {s : State} {q : List Block} (hr : s.run = false) (hp : s.pend = q) :
    ∃ n u, coreStepN n s = .next u ∧ u = { s with
      chainH := chain s.chainH q, pend := [], phase := if q ≠ [] ∧ s.phase = .finalizing then .done else s.phase,
      t := u.t, v := u.v, w := u.w } := by
  induction q generalizing s with
  | nil => exact ⟨0, s, rfl, (by rw [← hp] : s = { s with pend := [] }).trans (by simp)⟩
  | cons blk rest ih =>
    obtain ⟨n, u, hu, hframe⟩ := ih (s := { s with
      chainH := compress s.chainH (schedule blk), pend := rest, run := false,
      phase := if rest = [] ∧ s.phase = .finalizing then .done else s.phase,
      t := 64, v := rounds s.chainH (schedule blk) 64, w := schedule blk }) rfl rfl
    refine ⟨66 + n, u, (coreStepN_add (coreStepN_compress hr hp)).trans hu, ?_⟩
    rw [hframe]
    by_cases hrest : rest = [] <;> simp [hrest, hr]

/-- R200: a command that waits for CORE finds BUSY = 0 in the end, and the message as it was. -/
theorem State.Between.drain {s : State} {c : Command} {cs : List Command} {rs : List Word} (h : s.Between (c :: cs) rs)
    (hc : acceptedWhileBusy c = false) :
    ∃ t, Reaches s t ∧ t.Between (c :: cs) rs ∧ t.pend = [] ∧ (∀ m, s.OpenMessage m → t.OpenMessage m) ∧
      (∀ d, s.ClosedMessage d → t.ClosedMessage d) := by
  obtain ⟨n, u, hu, hframe⟩ := coreStepN_chain h.notRunning rfl
  have hdone : u.pend = [] := by rw [hframe]
  obtain ⟨m, k, p, -, hrun⟩ := stepN_of_coreStepN h.inv h.noReset h.port_eq hc hu hdone s.coreSteps s.polls
  refine ⟨_, ⟨m, hrun⟩, ⟨h.inv.stepN hrun, ?_, ?_, ?_, ?_⟩, hdone, fun msg ho => ⟨?_, ?_, ?_, ?_, ?_⟩, fun d hd => ⟨?_, ?_, ?_⟩⟩
  all_goals rw [hframe]
  · exact h.noReset
  · exact h.notRunning
  · exact h.port_eq
  · exact h.returned_eq
  · exact ho.noError
  · simp [State.withCounters, ho.phase]
  · exact ho.len
  · exact ho.partialBlock
  · exact ho.chain_pend
  · exact hd.noError
  · by_cases hf : s.phase = .finalizing
    · simp [State.withCounters, hf, h.inv.finalizingBusy hf]
    · simp [State.withCounters, hd.phase.resolve_left hf]
  · exact hd.chain_pend

/-! ### One command of the sequence -/

/-- Where BUSY = 0, the next command on the port is executed and answered in one step. -/
theorem State.Between.exec {s u : State} {i : Instr} {cs : List Command} {rs : List Word} (h : s.Between (encode i :: cs) rs)
    (hw : i.wellFormed = true) (hb : s.pend = []) (hx : exec i s.takeCommand = .next u) :
    Reaches s u.returnResp ∧ u.returnResp.Between cs (rs ++ [u.resp]) := by
  have hbusy : s.busy = false := s.busy_false_iff.2 hb
  have hcore : s.coreEnabled = false := by simp [State.coreEnabled, h.notRunning, hbusy]
  have hstep := step_of_exec h.noReset h.port_eq (decodeOfEncodeIsTheCommand i hw) (State.accepts_of_not_busy hbusy _)
    (.inl hcore) hx
  obtain ⟨hrun, -, -, -, hport, hret, hreset, -⟩ := exec_core_fields hx
  refine ⟨.of_step hstep, ⟨h.inv.step hstep, ?_, ?_, ?_, ?_⟩⟩
  · exact hreset.trans h.noReset
  · exact hrun.trans h.notRunning
  · exact hport.trans (congrArg List.tail h.port_eq)
  · exact congrArg (· ++ [u.resp]) (hret.trans h.returned_eq)

theorem acceptedWhileBusy_encode {i : Instr} (hw : i.wellFormed = true) (hnop : i ≠ .nop) (hrdstat : i ≠ .rdstat) :
    acceptedWhileBusy (encode i) = false := by
  rw [← Bool.not_eq_true, acceptedWhileBusy_iff, decodeOfEncodeIsTheCommand i hw]
  simp [hnop, hrdstat]

/-- A command other than NOP and RDSTAT: CORE empties the queue, and then it is executed and answered, in a state `d` with the
message as it was. -/
theorem State.Between.command {s : State} {i : Instr} {cs : List Command} {rs : List Word}
    (h : s.Between (encode i :: cs) rs) (hw : i.wellFormed = true) (hnop : i ≠ .nop) (hrdstat : i ≠ .rdstat) :
    ∃ d : State, d.Inv ∧ d.pend = [] ∧ (∀ m, s.OpenMessage m → d.OpenMessage m) ∧
      (∀ x, s.ClosedMessage x → d.ClosedMessage x) ∧
      ∀ u, Machine.exec i d = .next u → Reaches s u.returnResp ∧ u.returnResp.Between cs (rs ++ [u.resp]) := by
  obtain ⟨t, hst, ht, hb, hopen, hclosed⟩ := h.drain (acceptedWhileBusy_encode hw hnop hrdstat)
  refine ⟨t.takeCommand, ht.inv.takeCommand, hb, fun m ho => ?_, fun x hx => ?_, fun u hu => ?_⟩
  · obtain ⟨he, hp, hl, hpart, hchain⟩ := hopen m ho
    exact ⟨he, hp, hl, hpart, hchain⟩
  · obtain ⟨he, hp, hchain⟩ := hclosed x hx
    exact ⟨he, hp, hchain⟩
  · obtain ⟨hreach, hbetween⟩ := ht.exec hw hb hu
    exact ⟨hst.trans hreach, hbetween⟩

theorem State.OpenMessage.returnResp {s : State} {m : List Byte} (h : s.OpenMessage m) : s.returnResp.OpenMessage m :=
  ⟨h.noError, h.phase, h.len, h.partialBlock, h.chain_pend⟩

theorem State.ClosedMessage.returnResp {s : State} {h : Words8} (hc : s.ClosedMessage h) : s.returnResp.ClosedMessage h :=
  ⟨hc.noError, hc.phase, hc.chain_pend⟩

/-- INIT opens the empty message (R212). -/
theorem State.initialized_openMessage {s : State} (hb : s.pend = []) : s.initialized.OpenMessage [] :=
  ⟨rfl, rfl, rfl, rfl, by rw [State.initialized, hb]; rfl⟩

/-- The bytes of an ABSORB join the message, and a block they fill is queued (R214, R105). -/
theorem State.OpenMessage.execAbsorb {s : State} {m : List Byte} (h : s.OpenMessage m) (n1 : BitVec 2) (data : Word)
    (hl : (m ++ lanes n1 data).length ≤ Config.maxMsgBytes) :
    ∃ u, execAbsorb n1 data s = .next u ∧ u.resp = 0 ∧ u.OpenMessage (m ++ lanes n1 data) := by
  rw [List.length_append, lanes_length, ← h.len] at hl
  obtain ⟨u, hx, hframe, hpart, hpend⟩ := execAbsorb_spec n1 data h.phase hl
  have hH : u.chainH = s.chainH := by rw [hframe]
  have hintake : u.partialBlock = lastBytes (m ++ lanes n1 data) ∧
      chain s.chainH u.pend = chain iv (blocks (m ++ lanes n1 data)) := by
    have hfill : s.fill.val + byteCount n1 = (lastBytes m ++ lanes n1 data).length := by
      rw [List.length_append, ← h.partialBlock, State.partialBlock_length, lanes_length]
    rw [h.partialBlock, hfill] at hpart hpend
    by_cases hlt : (lastBytes m ++ lanes n1 data).length < 64
    · obtain ⟨hlast, hblocks⟩ := lastBytes_blocks_append_of_lt hlt
      rw [hpart, hpend, if_pos hlt, if_pos hlt, hlast, hblocks]
      exact ⟨rfl, h.chain_pend⟩
    · have h128 : (lastBytes m ++ lanes n1 data).length < 128 := by
        have := byteCount_le n1
        have := s.fill.isLt
        omega
      obtain ⟨hlast, hblocks⟩ := lastBytes_blocks_append_of_ge (Nat.not_lt.1 hlt) h128
      rw [hpart, hpend, if_neg hlt, if_neg hlt, hlast, hblocks, chain_append, chain_append, h.chain_pend]
      exact ⟨rfl, rfl⟩
  refine ⟨u, hx, by rw [hframe], ?_, ?_, ?_, hintake.1, by rw [hH, hintake.2]⟩
  · rw [hframe]
    exact h.noError
  · rw [hframe]
    exact h.phase
  · rw [hframe, List.length_append, lanes_length, ← h.len]

/-- FINAL closes the message, and the blocks of its padding are compressed or queued (R218, R105). -/
theorem State.OpenMessage.execFinal {s : State} {m : List Byte} (h : s.OpenMessage m) :
    ∃ u, execFinal s = .next u ∧ u.resp = 0 ∧ u.ClosedMessage (chain iv (blocks (pad m))) := by
  refine ⟨_, execFinal_spec h.phase, rfl, h.noError, .inl rfl, ?_⟩
  rw [blocks_pad, chain_append, chain_append, h.chain_pend, h.partialBlock, h.len]

/-! ### The sequence up to FINAL -/

theorem State.Between.init {s : State} {cs : List Command} {rs : List Word} (h : s.Between (encode .init :: cs) rs) :
    ∃ t, Reaches s t ∧ t.Between cs (rs ++ [0]) ∧ t.OpenMessage [] := by
  obtain ⟨d, -, hb, -, -, hrun⟩ := h.command rfl (by simp) (by simp)
  obtain ⟨hreach, hbetween⟩ := hrun _ (execInit_eq d)
  exact ⟨_, hreach, hbetween, (State.initialized_openMessage hb).returnResp⟩

theorem State.Between.absorb {s : State} {m : List Byte} {n1 : BitVec 2} {data : Word} {cs : List Command} {rs : List Word}
    (h : s.Between (encode (.absorb n1 data) :: cs) rs) (ho : s.OpenMessage m)
    (hl : (m ++ lanes n1 data).length ≤ Config.maxMsgBytes) :
    ∃ t, Reaches s t ∧ t.Between cs (rs ++ [0]) ∧ t.OpenMessage (m ++ lanes n1 data) := by
  obtain ⟨d, -, -, hopen, -, hrun⟩ := h.command rfl (by simp) (by simp)
  obtain ⟨u, hu, hresp, hmsg⟩ := (hopen m ho).execAbsorb n1 data hl
  obtain ⟨hreach, hbetween⟩ := hrun u hu
  exact ⟨_, hreach, hresp ▸ hbetween, hmsg.returnResp⟩

/-- The ABSORBs of a sequence, whatever the split of the message. -/
theorem State.Between.absorbs {s : State} {m : List Byte} {parts : List (BitVec 2 × Word)} {cs : List Command}
    {rs : List Word} (h : s.Between (parts.map (fun p => encode (.absorb p.1 p.2)) ++ cs) rs) (ho : s.OpenMessage m)
    (hl : (m ++ messageOf parts).length ≤ Config.maxMsgBytes) :
    ∃ t, Reaches s t ∧ t.Between cs (rs ++ List.replicate parts.length 0) ∧ t.OpenMessage (m ++ messageOf parts) := by
  induction parts generalizing s m rs with
  | nil => exact ⟨s, ⟨0, rfl⟩, by simpa using h, by simpa [messageOf] using ho⟩
  | cons p parts ih =>
    rw [messageOf_cons, ← List.append_assoc] at hl ⊢
    obtain ⟨t, hst, ht, hto⟩ := State.Between.absorb h ho (by rw [List.length_append] at hl; omega)
    obtain ⟨u, htu, hu, huo⟩ := ih ht hto hl
    rw [List.append_assoc] at hu
    exact ⟨u, hst.trans htu, hu, huo⟩

theorem State.Between.final {s : State} {m : List Byte} {cs : List Command} {rs : List Word}
    (h : s.Between (encode .final :: cs) rs) (ho : s.OpenMessage m) :
    ∃ t, Reaches s t ∧ t.Between cs (rs ++ [0]) ∧ t.ClosedMessage (chain iv (blocks (pad m))) := by
  obtain ⟨d, -, -, hopen, -, hrun⟩ := h.command rfl (by simp) (by simp)
  obtain ⟨u, hu, hresp, hmsg⟩ := (hopen m ho).execFinal
  obtain ⟨hreach, hbetween⟩ := hrun u hu
  exact ⟨_, hreach, hresp ▸ hbetween, hmsg.returnResp⟩

/-! ### The reads -/

/-- A read of a part of the digest: RDDIG or RDHEX with a legal index. -/
def readsDigest : Instr → Bool
  | .rddig idx => decide (idx.toNat < 8)
  | .rdhex _ => true
  | _ => false

/-- The word that such a read answers in phase DONE, where `H` is `h`. -/
def digestWord (h : Words8) : Instr → Word
  | .rddig idx => h[idx.toNat]?.getD 0
  | .rdhex idx => hexGroup (toHex (digestBytes h)) idx.toNat
  | _ => 0

theorem exec_readsDigest {i : Instr} {s : State} (hi : readsDigest i = true) (hp : s.phase = .done) :
    exec i s = .next (s.respond (digestWord s.chainH i)) := by
  cases i with
  | rddig idx =>
    have h8 : idx.toNat < 8 := of_decide_eq_true hi
    refine (execRddig_of_done h8 hp).trans ?_
    rw [digestWord, Vector.getElem?_eq_getElem h8]
    rfl
  | rdhex idx => exact execRdhex_of_done idx hp
  | nop | init | absorb | final | rdstat => exact absurd hi (by simp [readsDigest])

/-- One read, after CORE has emptied the queue. -/
theorem State.Between.read {s : State} {h : Words8} {i : Instr} {cs : List Command} {rs : List Word}
    (hs : s.Between (encode i :: cs) rs) (hc : s.ClosedMessage h) (hi : readsDigest i = true) :
    ∃ t, Reaches s t ∧ t.Between cs (rs ++ [digestWord h i]) ∧ t.ClosedMessage h ∧ t.pend = [] := by
  obtain ⟨hw, hnop, hrdstat⟩ : i.wellFormed = true ∧ i ≠ .nop ∧ i ≠ .rdstat := by
    cases i <;> simp_all [readsDigest, Instr.wellFormed]
  obtain ⟨d, hinv, hb, -, hclosed, hrun⟩ := hs.command hw hnop hrdstat
  obtain ⟨hdone, rfl⟩ := (hclosed h hc).done hinv hb
  obtain ⟨hreach, hbetween⟩ := hrun _ (exec_readsDigest hi hdone)
  obtain ⟨he, hp, hchain⟩ := hclosed _ hc
  exact ⟨_, hreach, hbetween, ⟨he, hp, hchain⟩, hb⟩

/-- The reads at the end of a sequence. -/
theorem State.Between.reads {s : State} {h : Words8} {is : List Instr} {rs : List Word} (hs : s.Between (is.map encode) rs)
    (hc : s.ClosedMessage h) (his : ∀ i ∈ is, readsDigest i = true) (hb : s.pend = [] ∨ is ≠ []) :
    ∃ t, Reaches s t ∧ t.Between [] (rs ++ is.map (digestWord h)) ∧ t.ClosedMessage h ∧ t.pend = [] := by
  induction is generalizing s rs with
  | nil => exact ⟨s, ⟨0, rfl⟩, by simpa using hs, hc, by simpa using hb⟩
  | cons i is ih =>
    rw [List.forall_mem_cons] at his
    obtain ⟨t, hst, ht, htc, htb⟩ := State.Between.read hs hc his.1
    obtain ⟨u, htu, hu, huc, hub⟩ := ih ht htc his.2 (.inl htb)
    rw [List.append_assoc] at hu
    exact ⟨u, hst.trans htu, hu, huc, hub⟩

/-! ### The whole sequence (R232) -/

theorem hashProgram_eq (parts : List (BitVec 2 × Word)) (is : List Instr) :
    hashProgram parts is =
      encode .init :: (parts.map (fun p => encode (.absorb p.1 p.2)) ++ encode .final :: is.map encode) := by
  simp [hashProgram]

/-- The sequence with any reads: it ends with the message's chaining state in `H`, and the reads have answered from it. -/
theorem reaches_of_hashProgram {s : State} {parts : List (BitVec 2 × Word)} {is : List Instr} (hi : s.Inv)
    (hb : s.busy = false) (hr : s.resetPin = false) (hl : (messageOf parts).length ≤ Config.maxMsgBytes)
    (his : ∀ i ∈ is, readsDigest i = true) (hne : is ≠ []) (hp : s.port = hashProgram parts is) :
    ∃ n t, stepN n s = .next t ∧ t.port = [] ∧ t.busy = false ∧ t.err = false ∧ t.dvalid = true ∧
      t.returned = s.returned ++ List.replicate (parts.length + 2) 0 ++
        is.map (digestWord (chain iv (blocks (pad (messageOf parts))))) := by
  have hrun : s.run = false := hi.not_run (s.busy_false_iff.1 hb)
  obtain ⟨s₁, h₁, hs₁, ho₁⟩ := State.Between.init ⟨hi, hr, hrun, hp.trans (hashProgram_eq parts is), rfl⟩
  obtain ⟨s₂, h₂, hs₂, ho₂⟩ := hs₁.absorbs ho₁ hl
  obtain ⟨s₃, h₃, hs₃, hc₃⟩ := hs₂.final ho₂
  obtain ⟨t, h₄, ht, hct, hbt⟩ := hs₃.reads hc₃ his (.inr hne)
  obtain ⟨n, hn⟩ := ((h₁.trans h₂).trans h₃).trans h₄
  have hzeros : List.replicate (parts.length + 2) (0 : Word) = [0] ++ List.replicate parts.length 0 ++ [0] := by
    rw [List.replicate_succ', List.replicate_succ]
    rfl
  refine ⟨n, t, hn, ht.port_eq, (State.busy_false_iff t).2 hbt, hct.noError, ?_, ?_⟩
  · exact decide_eq_true (hct.done ht.inv hbt).1
  · rw [ht.returned_eq, hzeros]
    simp only [List.append_assoc, List.nil_append]

/-- A sequence cut into pieces of four bytes, put together again. -/
theorem flatMap_take_drop (l : List Byte) (n : Nat) :
    (List.range n).flatMap (fun j => (l.drop (4 * j)).take 4) = l.take (4 * n) := by
  induction n with
  | zero => rfl
  | succ n ih => rw [List.range_succ, List.flatMap_append, ih, List.flatMap_singleton, Nat.mul_succ, List.take_add]

/-- The 16 words of RDHEX spell the hex string (R225). -/
theorem flatMap_rdhexAll (h : Words8) :
    (rdhexAll.map (digestWord h)).flatMap bytes32 = toHex (digestBytes h) := by
  have hwords : (rdhexAll.map (digestWord h)).flatMap bytes32 =
      (List.range 16).flatMap (fun j => ((toHex (digestBytes h)).drop (4 * j)).take 4) := by
    rw [rdhexAll, List.map_map, List.flatMap_map, ← List.map_coe_finRange_eq_range, List.flatMap_map]
    exact List.flatMap_congr fun j _ => bytes32_hexGroup_digest h j.isLt
  rw [hwords, flatMap_take_drop, List.take_of_length_le (by rw [toHex_digestBytes_length])]

/-- The 8 words of RDDIG are the words of the digest (R222). -/
theorem map_rddigAll (h : Words8) : rddigAll.map (digestWord h) = h.toList := by
  apply List.ext_getElem
  · simp [rddigAll]
  · intro i hi _
    have h8 : i < 8 := by simpa [rddigAll] using hi
    simp [rddigAll, digestWord, Nat.mod_eq_of_lt (show i < 16 by omega), h8]

/-- Settles O60: the run is `reaches_of_hashProgram`, and the words of the reads are those of the digest of the message. -/
theorem hashCommandsComputeTheHash : Obligations.HashCommandsComputeTheHash := by
  refine fun s parts hi hb hr hl => ⟨fun hp => ?_, fun hp => ?_⟩
  · obtain ⟨n, t, hn, hport, hbusy, herr, hdv, hret⟩ :=
      reaches_of_hashProgram hi hb hr hl (by decide) (by decide) hp
    exact ⟨n, t, _, hn, hport, hbusy, herr, hdv, hret, rfl, flatMap_rdhexAll _⟩
  · obtain ⟨n, t, hn, hport, hbusy, herr, hdv, hret⟩ :=
      reaches_of_hashProgram hi hb hr hl (by decide) (by decide) hp
    exact ⟨n, t, _, hn, hport, hbusy, herr, hdv, hret, rfl, by rw [map_rddigAll]; rfl⟩

end Sys2Proof.Machine
end

section
/-!
PROOFS. Errors (spec/60_exceptions.md R260-R270). `Raises` is the table of R262 as the commands run through it: which command raises which
cause, and where. What a command does to `err` and `cause` is said once (`exec_error_cases`), and the statements are read off that.
-/

namespace Sys2Proof.Machine

/-! ### `raise` (R263) -/

/-- `raise` as one update, whether or not an error is recorded. -/
theorem State.raise_eq (s : State) (c : Cause) :
    s.raise c = { s with err := true, cause := if s.err then s.cause else c, resp := 0 } := by
  unfold State.raise
  by_cases he : s.err = true
  · rw [if_pos he, if_pos he, ← he]
  · rw [if_neg he, if_neg he]

theorem State.raise_cause_of_no_error {s : State} (he : s.err = false) (c : Cause) : (s.raise c).cause = c := by
  simp [he]

/-- A cause that `raise` newly leaves is the cause raised. -/
theorem State.eq_cause_of_raise {s : State} {c k : Cause} (hk : (s.raise c).cause = k) (hs : s.cause ≠ k) : c = k := by
  rw [State.raise_cause] at hk
  split at hk
  · exact absurd hk hs
  · exact hk

theorem State.raise_err_iff_cause {s : State} {c : Cause} (hc : c ≠ .noError) (h : s.err = true ↔ s.cause ≠ .noError) :
    (s.raise c).err = true ↔ (s.raise c).cause ≠ .noError := by
  refine iff_of_true (s.raise_err c) ?_
  rw [State.raise_cause]
  split
  · next he => exact h.1 he
  · exact hc

/-- A HOST step whose command raises: the pair is off the port, 0 is returned, and the rest is `raise`'s. -/
theorem hostStep_of_raise {s : State} {c : Command} {k : Cause}
    (h : dispatchCommand c s.takeCommand = .next (s.takeCommand.raise k)) :
    hostStep c s = .next { s with
      err := true, cause := if s.err then s.cause else k, resp := 0,
      port := s.port.tail, returned := s.returned ++ [0], polls := s.takeCommand.polls } :=
  hostStep_eq_next.2 ⟨_, h, by rw [State.raise_eq]; rfl⟩

/-! ### Which command raises which cause (R262) -/

/-- In the state `s` the command raises the cause. The order of R267 is that no two of the rules apply at once. -/
inductive Raises (s : State) : Instr → Cause → Prop where
  | absorbPhase (n1 : BitVec 2) (data : Word) : s.phase ≠ .absorb → Raises s (.absorb n1 data) .seqErr
  | absorbLength (n1 : BitVec 2) (data : Word) : s.phase = .absorb → s.len + byteCount n1 > Config.maxMsgBytes →
      Raises s (.absorb n1 data) .lenOvf
  | finalPhase : s.phase ≠ .absorb → Raises s .final .seqErr
  | rddigIndex (idx : BitVec 4) : 8 ≤ idx.toNat → Raises s (.rddig idx) .illegalCmd
  | rddigPhase (idx : BitVec 4) : idx.toNat < 8 → s.phase ≠ .done → Raises s (.rddig idx) .seqErr
  | rdhexPhase (idx : BitVec 4) : s.phase ≠ .done → Raises s (.rdhex idx) .seqErr

/-- A command that raises does nothing else. -/
theorem exec_of_raises {s : State} {i : Instr} {c : Cause} (h : Raises s i c) : exec i s = .next (s.raise c) := by
  cases h with
  | absorbPhase n1 data hp => exact execAbsorb_of_wrongPhase n1 data hp
  | absorbLength n1 data hp hl => exact execAbsorb_of_overlong data hp hl
  | finalPhase hp => exact execFinal_of_wrongPhase hp
  | rddigIndex idx hi => exact dif_neg (Nat.not_lt.2 hi)
  | rddigPhase idx hi hp => exact execRddig_of_wrongPhase hi hp
  | rdhexPhase idx hp => exact execRdhex_of_wrongPhase idx hp

/-- The three things a command can do to `err` and `cause`: raise, clear them (INIT), or leave them. -/
theorem exec_error_cases {i : Instr} {s t : State} (h : exec i s = .next t) :
    (∃ c, Raises s i c ∧ t = s.raise c) ∨ (i = .init ∧ t.err = false ∧ t.cause = .noError) ∨
      (t.err = s.err ∧ t.cause = s.cause) := by
  cases i with
  | nop | rdstat => obtain rfl := Host.Outcome.next.inj h; exact .inr (.inr ⟨rfl, rfl⟩)
  | init => obtain rfl := Host.Outcome.next.inj h; exact .inr (.inl ⟨rfl, rfl, rfl⟩)
  | absorb n1 data =>
    rcases execAbsorb_cases h with ⟨hp, rfl⟩ | ⟨hp, hl, rfl⟩ | ⟨-, -, rfl⟩
    · exact .inl ⟨_, .absorbPhase n1 data hp, rfl⟩
    · exact .inl ⟨_, .absorbLength n1 data hp hl, rfl⟩
    · rw [State.respond_err, State.respond_cause, absorbBytes_frame]
      exact .inr (.inr ⟨rfl, rfl⟩)
  | final =>
    rcases execFinal_cases h with ⟨hp, rfl⟩ | ⟨-, rfl⟩
    · exact .inl ⟨_, .finalPhase hp, rfl⟩
    · exact .inr (.inr ⟨rfl, rfl⟩)
  | rddig idx =>
    rcases execRddig_cases h with ⟨hi, rfl⟩ | ⟨hi, hp, rfl⟩ | ⟨_, -, rfl⟩
    · exact .inl ⟨_, .rddigIndex idx hi, rfl⟩
    · exact .inl ⟨_, .rddigPhase idx hi hp, rfl⟩
    · exact .inr (.inr ⟨rfl, rfl⟩)
  | rdhex idx =>
    rcases execRdhex_cases h with ⟨hp, rfl⟩ | ⟨-, rfl⟩
    · exact .inl ⟨_, .rdhexPhase idx hp, rfl⟩
    · exact .inr (.inr ⟨rfl, rfl⟩)

/-- A command that newly leaves a cause has raised it. -/
theorem raises_of_new_cause {i : Instr} {s t : State} {k : Cause} (h : exec i s = .next t) (hk : k ≠ .noError)
    (ht : t.cause = k) (hs : s.cause ≠ k) : Raises s i k := by
  rcases exec_error_cases h with ⟨c, hr, rfl⟩ | ⟨-, -, hc⟩ | ⟨-, hc⟩
  · exact State.eq_cause_of_raise ht hs ▸ hr
  · exact absurd (ht.symm.trans hc) hk
  · exact absurd (hc.symm.trans ht) hs

/-- A command that newly records an error has raised the cause it leaves. -/
theorem raises_of_new_error {i : Instr} {s t : State} (h : exec i s = .next t) (hs : s.err = false) (ht : t.err = true) :
    Raises s i t.cause := by
  rcases exec_error_cases h with ⟨c, hr, rfl⟩ | ⟨-, he, -⟩ | ⟨he, -⟩
  · rwa [State.raise_cause_of_no_error hs]
  · simp [ht] at he
  · simp [ht, hs] at he

/-! ### A recorded error hinders no command (R263, R234) -/

/-- `s` with another error recorded, or with none. -/
def State.withError (s : State) (e : Bool) (c : Cause) : State := { s with err := e, cause := c }

theorem State.raise_withError (s : State) (e : Bool) (c k : Cause) :
    (s.withError e c).raise k = (s.raise k).withError true (if e then c else k) := by
  rw [State.raise_eq, State.raise_eq]
  rfl

/-- The intake neither reads nor writes `err` and `cause`. -/
theorem absorbByte_withError (b : Byte) (s : State) (e : Bool) (c : Cause) :
    absorbByte b (s.withError e c) = (absorbByte b s).withError e c := by
  unfold absorbByte
  by_cases hlt : s.fill.val + 1 < 64
  · rw [dif_pos hlt, dif_pos (show (s.withError e c).fill.val + 1 < 64 from hlt)]
    rfl
  · rw [dif_neg hlt, dif_neg (show ¬(s.withError e c).fill.val + 1 < 64 from hlt)]
    rfl

theorem absorbBytes_withError (bs : List Byte) (s : State) (e : Bool) (c : Cause) :
    absorbBytes bs (s.withError e c) = (absorbBytes bs s).withError e c := by
  induction bs generalizing s with
  | nil => rfl
  | cons b bs ih => rw [absorbBytes, absorbByte_withError, ih, absorbBytes]

/-- Whether a command raises does not depend on the error recorded. -/
theorem Raises.withError {s : State} {i : Instr} {k : Cause} (h : Raises s i k) (e : Bool) (c : Cause) :
    Raises (s.withError e c) i k := by
  cases h with
  | absorbPhase n1 data hp => exact .absorbPhase n1 data hp
  | absorbLength n1 data hp hl => exact .absorbLength n1 data hp hl
  | finalPhase hp => exact .finalPhase hp
  | rddigIndex idx hi => exact .rddigIndex idx hi
  | rddigPhase idx hi hp => exact .rddigPhase idx hi hp
  | rdhexPhase idx hp => exact .rdhexPhase idx hp

theorem exec_withError_of_raises {s : State} {i : Instr} {k : Cause} (h : Raises s i k) (e : Bool) (c : Cause) :
    ∃ e' c', exec i (s.withError e c) = .next ((s.raise k).withError e' c') :=
  ⟨_, _, by rw [exec_of_raises (h.withError e c), State.raise_withError]⟩

/-- Every command but RDSTAT does and answers the same whatever error is recorded, the error itself apart. -/
theorem exec_withError {i : Instr} {s t : State} (hi : i ≠ .rdstat) (hx : exec i s = .next t) (e : Bool) (c : Cause) :
    ∃ e' c', exec i (s.withError e c) = .next (t.withError e' c') := by
  cases i with
  | nop => obtain rfl := Host.Outcome.next.inj hx; exact ⟨e, c, rfl⟩
  | init => obtain rfl := Host.Outcome.next.inj hx; exact ⟨false, .noError, rfl⟩
  | rdstat => exact absurd rfl hi
  | absorb n1 data =>
    rcases execAbsorb_cases hx with ⟨hp, rfl⟩ | ⟨hp, hl, rfl⟩ | ⟨hp, hl, rfl⟩
    · exact exec_withError_of_raises (.absorbPhase n1 data hp) e c
    · exact exec_withError_of_raises (.absorbLength n1 data hp hl) e c
    · exact ⟨e, c, (execAbsorb_of_fits (s := s.withError e c) data hp hl).trans (by rw [absorbBytes_withError]; rfl)⟩
  | final =>
    rcases execFinal_cases hx with ⟨hp, rfl⟩ | ⟨hp, rfl⟩
    · exact exec_withError_of_raises (.finalPhase hp) e c
    · exact ⟨e, c, execFinal_spec hp⟩
  | rddig idx =>
    rcases execRddig_cases hx with ⟨h8, rfl⟩ | ⟨h8, hp, rfl⟩ | ⟨h8, hp, rfl⟩
    · exact exec_withError_of_raises (.rddigIndex idx h8) e c
    · exact exec_withError_of_raises (.rddigPhase idx h8 hp) e c
    · exact ⟨e, c, execRddig_of_done h8 hp⟩
  | rdhex idx =>
    rcases execRdhex_cases hx with ⟨hp, rfl⟩ | ⟨hp, rfl⟩
    · exact exec_withError_of_raises (.rdhexPhase idx hp) e c
    · exact ⟨e, c, execRdhex_of_done idx hp⟩

/-- Settles O33: RDSTAT alone reads the error, and it changes nothing but `resp`. -/
theorem raiseRecordsTheFirstCause : Obligations.RaiseRecordsTheFirstCause := by
  refine ⟨fun s c => ⟨s.raise_eq c, State.raise_err_iff_cause⟩, fun s c k => hostStep_of_raise, fun i s t e c hx => ?_⟩
  by_cases hi : i = .rdstat
  · subst hi
    obtain rfl := Host.Outcome.next.inj hx
    exact ⟨_, rfl, rfl, fun hne => absurd rfl hne⟩
  · obtain ⟨e', c', hx'⟩ := exec_withError hi hx e c
    exact ⟨_, hx', rfl, fun _ => rfl⟩

/-! ### SEQ_ERR and LEN_OVF (R265, R266) -/

theorem exec_eq_of_raises {s : State} {i : Instr} {k : Cause} (h : Raises s i k) :
    exec i s = .next { s with err := true, cause := if s.err then s.cause else k, resp := 0 } := by
  rw [exec_of_raises h, State.raise_eq]

/-- Settles O34: a command that newly leaves SEQ_ERR has raised it, and the rules of `Raises` for that cause are those of the phase. -/
theorem wrongPhaseRaisesSeqErr : Obligations.WrongPhaseRaisesSeqErr := by
  refine fun s =>
    ⟨fun hp => ⟨fun n1 data => exec_eq_of_raises (.absorbPhase n1 data hp), exec_eq_of_raises (.finalPhase hp)⟩,
     fun hp => ⟨fun idx hi => exec_eq_of_raises (.rddigPhase idx hi hp), fun idx => exec_eq_of_raises (.rdhexPhase idx hp)⟩,
     fun i t _ hx ht hne => ?_⟩
  cases raises_of_new_cause hx (by decide) ht (ht ▸ hne.symm) with
  | absorbPhase n1 data hp => exact .inl ⟨n1, data, rfl, hp⟩
  | finalPhase hp => exact .inr (.inl ⟨rfl, hp⟩)
  | rddigPhase idx _ hp => exact .inr (.inr (.inl ⟨idx, rfl, hp⟩))
  | rdhexPhase idx hp => exact .inr (.inr (.inr ⟨idx, rfl, hp⟩))

/-- Settles O35: `Raises` has one rule for LEN_OVF. -/
theorem overlongAbsorbRaisesLenOvf : Obligations.OverlongAbsorbRaisesLenOvf := by
  refine ⟨fun s n1 data hp hl => exec_eq_of_raises (.absorbLength n1 data hp hl), fun i s t hx ht hs => ?_⟩
  cases raises_of_new_cause hx (by decide) ht hs with
  | absorbLength n1 data hp hl => exact ⟨n1, data, rfl, hp, hl⟩

/-- Settles O36: an illegal word is no command, and `Raises` asks ABSORB's phase before its length. -/
theorem causesArePrioritised : Obligations.CausesArePrioritised :=
  ⟨fun _ _ s he hd => ⟨_, dispatchCommand_of_error hd s, State.raise_cause_of_no_error he _⟩,
   fun _ n1 data he hp _ => ⟨_, exec_of_raises (.absorbPhase n1 data hp), State.raise_cause_of_no_error he _⟩⟩

/-! ### The table of R262 -/

theorem Phase.idle_or_done {p : Phase} (ha : p ≠ .absorb) (hf : p ≠ .finalizing) : p = .idle ∨ p = .done := by
  cases p <;> simp_all

theorem Phase.idle_or_absorb {p : Phase} (hd : p ≠ .done) (hf : p ≠ .finalizing) : p = .idle ∨ p = .absorb := by
  cases p <;> simp_all

/-- Settles O37: BUSY = 0 where a command that can raise is accepted, so the phase is not FINALIZING; and the decoder makes no RDDIG
with an index above 7. -/
theorem commandsRaiseOnlyTheirCauses : Obligations.CommandsRaiseOnlyTheirCauses := by
  intro c s t hinv hacc hs hx ht
  rcases dispatchCommand_cases hx with ⟨e, hd, rfl⟩ | ⟨i, hd, hi⟩
  · rw [hd]
    exact State.raise_cause_of_no_error hs _
  · have hr := raises_of_new_error hi hs ht
    have hb := State.accepts_of_ok hacc hd
    have hw := wellFormed_of_decode hd
    rw [hd]
    generalize t.cause = k at hr
    cases hr with
    | absorbPhase n1 data hp => exact .inl ⟨rfl, Phase.idle_or_done hp (hinv.not_finalizing (by simpa using hb))⟩
    | absorbLength n1 data hp hl => exact .inr ⟨rfl, hp, hl⟩
    | finalPhase hp => exact ⟨rfl, Phase.idle_or_done hp (hinv.not_finalizing (by simpa using hb))⟩
    | rddigIndex idx h8 => exact absurd (of_decide_eq_true hw) (Nat.not_lt.2 h8)
    | rddigPhase idx _ hp => exact ⟨rfl, Phase.idle_or_absorb hp (hinv.not_finalizing (by simpa using hb))⟩
    | rdhexPhase idx hp => exact ⟨rfl, Phase.idle_or_absorb hp (hinv.not_finalizing (by simpa using hb))⟩

/-! ### Steps (R264, R268, R270) -/

/-- A second error changes neither `err` nor `cause` (R268). -/
theorem State.raise_cause_of_error {s : State} (he : s.err = true) (c : Cause) : (s.raise c).cause = s.cause := by
  simp [he]

/-- Settles O53: the cases are those of `step_cases`, and those of `exec_error_cases` for a command. -/
theorem errorStaysUntilInitOrReset : Obligations.ErrorStaysUntilInitOrReset := by
  intro s t h he
  rcases step_cases h with ⟨hr, rfl⟩ | ⟨c, rest, e, -, -, -, -, rfl⟩ | ⟨c, rest, i, u, hr, hp, -, hd, hx, rfl⟩ |
    ⟨-, -, u, hu, rfl⟩ | ⟨-, -, rfl⟩
  · exact .inr (.inl ⟨hr, rfl, rfl⟩)
  · exact .inl ⟨State.raise_err _ _, State.raise_cause_of_error (s := s.takeCommand) he _⟩
  · rcases exec_error_cases hx with ⟨c, -, rfl⟩ | ⟨rfl, hue, huc⟩ | ⟨hue, huc⟩
    · exact .inl ⟨State.raise_err _ _, State.raise_cause_of_error (s := s.takeCommand) he _⟩
    · exact .inr (.inr ⟨accepted_of_exec hr hp hd hx, hue, huc⟩)
    · exact .inl ⟨hue.trans he, huc⟩
  · rw [coreStep_frame hu]
    exact .inl ⟨he, rfl⟩
  · exact .inl ⟨he, rfl⟩

/-- Settles O47: held while BUSY = 1; where CORE has no step the turn is HOST's, and the step is `hostStep_of_raise`. -/
theorem stepRaisesIllegalCmd : Obligations.StepRaisesIllegalCmd := by
  intro s c rest e hr hp hd
  refine ⟨fun hb => ?_, fun hb hrun => ?_⟩
  · have hacc : s.accepts c = false := by
      rw [Bool.eq_false_iff, ne_eq, s.accepts_iff_of_error hd, hb]
      decide
    exact ⟨hacc, step_of_held hr hp hacc⟩
  · have hcore : s.coreEnabled = false := by simp [State.coreEnabled, hb, hrun]
    have hturn := State.turn_host hr (State.hostReady_of_accepts hp (State.accepts_of_not_busy hb c)) (.inl hcore)
    rw [step_of_turn_host hturn, hostStep_of_raise (dispatchCommand_of_error hd _), State.takeCommand_polls, hcore, hp]
    rfl

end Sys2Proof.Machine
end

section
/-!
PROOFS. Reset (spec/70_reset_and_hazards.md R300, R301): what the reset step leaves, and what each command does in phase IDLE.
-/

namespace Sys2Proof.Machine

/-! ### The reset step (R300) -/

/-- Reset is asserted, so the step is the reset, whatever else could step. -/
theorem step_eq_applyReset {s : State} (hr : s.resetPin = true) : step s = .next s.applyReset := by
  simp only [step, State.turn_reset hr]

theorem State.held_of_not_accepts {s : State} {c : Command} {rest : List Command} (hp : s.port = c :: rest)
    (ha : s.accepts c = false) : s.held = true := by
  simp [State.held, State.hostReady_of_held hp ha, hp]

/-- A held pair is not executed: reset drops it (R300, I13). -/
theorem State.applyReset_port_of_held {s : State} {c : Command} {rest : List Command} (hp : s.port = c :: rest)
    (ha : s.accepts c = false) : s.applyReset.port = rest := by
  rw [State.applyReset_port, if_pos (State.held_of_not_accepts hp ha), hp, List.tail_cons]

/-- Settles O49: the step is `State.applyReset`, whose elements are those of `State.reset`. -/
theorem resetSetsEverySpecifiedElement : Obligations.ResetSetsEverySpecifiedElement := fun s hr =>
  ⟨s.applyReset, step_eq_applyReset hr, rfl, rfl, rfl, rfl, rfl, rfl, rfl, rfl,
    fun _ _ => State.applyReset_port_of_held⟩

/-! ### The commands in phase IDLE (R301) -/

/-- Of the commands that have an encoding, all but NOP, INIT and RDSTAT are out of sequence in phase IDLE (R265). -/
theorem raises_seqErr_of_idle {s : State} {i : Instr} (hp : s.phase = .idle) (hw : i.wellFormed = true) (hnop : i ≠ .nop)
    (hinit : i ≠ .init) (hrdstat : i ≠ .rdstat) : Raises s i .seqErr := by
  have hnotAbsorb : s.phase ≠ .absorb := by simp [hp]
  have hnotDone : s.phase ≠ .done := by simp [hp]
  cases i with
  | nop => exact absurd rfl hnop
  | init => exact absurd rfl hinit
  | rdstat => exact absurd rfl hrdstat
  | absorb n1 data => exact .absorbPhase n1 data hnotAbsorb
  | final => exact .finalPhase hnotAbsorb
  | rddig idx => exact .rddigPhase idx (of_decide_eq_true hw) hnotDone
  | rdhex idx => exact .rdhexPhase idx hnotDone

/-- Only INIT leaves phase IDLE: FINAL is out of sequence there. -/
theorem exec_keeps_idle {i : Instr} {s t : State} (hp : s.phase = .idle) (hi : i ≠ .init) (h : exec i s = .next t) :
    t.phase = .idle := by
  rcases exec_phase h with he | ⟨rfl, -⟩ | ⟨-, ha, -⟩
  · exact he.trans hp
  · exact absurd rfl hi
  · simp [hp] at ha

theorem dispatchCommand_keeps_idle {c : Command} {s : State} (hp : s.phase = .idle) (hc : decode c ≠ .ok .init) :
    ∃ t, dispatchCommand c s = .next t ∧ t.phase = .idle := by
  cases hd : decode c with
  | error e => exact ⟨_, dispatchCommand_of_error hd s, (s.raise_phase _).trans hp⟩
  | ok i =>
    obtain ⟨t, hx⟩ := exec_completes i s
    have hi : i ≠ .init := by rintro rfl; exact hc hd
    exact ⟨t, (dispatchCommand_of_ok hd s).trans hx, exec_keeps_idle hp hi hx⟩

theorem State.status_reset : State.reset.status = 0x00000000 := by decide

/-- ERR, and CAUSE 2 (R43). -/
theorem State.status_reset_raise : (State.reset.raise .seqErr).status = 0x00050000 := by decide

/-- Phase ABSORB, and no other field (R43). -/
theorem State.status_reset_initialized : State.reset.initialized.status = 0x00000004 := by decide

/-- Settles O50: the pairs are `dispatchCommand_keeps_idle`, and the commands that raise are `raises_seqErr_of_idle`; NOP and RDSTAT
answer 0 and leave the rest. -/
theorem afterResetOnlyInitOpensAMessage : Obligations.AfterResetOnlyInitOpensAMessage := by
  refine ⟨State.status_reset, State.accepts_of_not_busy rfl, fun i hw hnop hinit hrdstat => ?_,
    ⟨_, execInit_eq _, rfl, rfl, State.status_reset_initialized⟩,
    ⟨_, rfl, rfl, rfl, rfl, State.status_reset⟩, ⟨_, rfl, rfl, rfl, State.status_reset, State.status_reset⟩,
    fun c => dispatchCommand_keeps_idle rfl⟩
  exact ⟨_, exec_of_raises (raises_seqErr_of_idle rfl hw hnop hinit hrdstat), rfl, rfl, rfl, State.status_reset_raise⟩

end Sys2Proof.Machine
end
